-- ==== Sys2Proof/Word.lean ====
section
/-! DEFINITION. The word types of the WebSocket Frame Codec (spec 00_scope.md R5, R8). Every value is unsigned. -/

namespace Sys2Proof

/-- One byte, 8 bits, bit 7 most significant (R8). -/
abbrev Byte := BitVec 8

/-- A finite byte sequence indexed from 0, index 0 first on the wire (R8). A byte buffer is one (20_memory.md R30). -/
abbrev Bytes := List Byte

/-- The 32-bit mask key (R5). -/
abbrev Key := BitVec 32

/-- The 64-bit payload-length register (R5). -/
abbrev Len := BitVec 64

/-- The 7-bit length selector of header byte 1 (R5, 30_encoding.md R53). -/
abbrev Sel := BitVec 7

end Sys2Proof
end

