-- ==== Sys2Proof/Config.lean ====
section
/-! DEFINITION. What a build of the codec fixes: the named parameters of spec 92_eei_decisions.md, and the free values. -/

namespace Sys2Proof

/-- `control_set` (D4): which opcode codes get the control-frame checks. -/
inductive ControlSet where
  /-- The default: codes 8, 9, 10. -/
  | named
  /-- The other value: codes 8 to 15. -/
  | bit3
deriving DecidableEq, Repr

/-- The five named parameters of 00_scope.md R5, collected in 92_eei_decisions.md, "The parameters left open". -/
structure Params where
  /-- `control_set` (D4). -/
  controlSet : ControlSet
  /-- `check_control_fin` (D5): refuse a control frame with FIN = 0. -/
  checkControlFin : Bool
  /-- `reject_masked_when_unmasked_expected` (D8). -/
  rejectMaskedWhenUnmaskedExpected : Bool
  /-- `require_minimal_length` (D9): refuse a length carried in a wider form than needed. -/
  requireMinimalLength : Bool
  /-- `max_frame_bytes` (D15): a build's largest frame; no behaviour of the block depends on it (R5, R209). -/
  maxFrameBytes : Option Nat
deriving DecidableEq, Repr

/-- The defaults of 00_scope.md R5: "Every rule of the spec is written for the default of each named parameter". -/
def Params.standard : Params where
  controlSet := .named
  checkControlFin := true
  rejectMaskedWhenUnmaskedExpected := true
  requireMinimalLength := false
  maxFrameBytes := none

/-- FREE VALUE (log 13). What KEY_BYTES reads when the key is absent: the spec calls the key absent there (10_state.md R13)
and states no value. No body, so nothing in Lean can evaluate it; one constant, because the operand is the same at every
such read and equal inputs give equal results (20_memory.md R34, R40). -/
opaque Config.absentKey : Key

/-- FREE VALUE (log 13). What the key register holds when CTL_UNPACK sets `masked` from bytes `byte0`, `byte1` and no key
has been read yet. A function of the operation's own operands, so that equal inputs give equal results. -/
opaque Config.unwrittenKey : Byte → Byte → Key

end Sys2Proof
end

