-- ==== Sys2Proof/Syntax.lean ====
section
/-! DEFINITION. The instructions: one constructor of `Instr` for each row of spec/opcode_table.json, and the names
the spec gives to modes, error kinds, opcode variants and length classes. -/

namespace Sys2Proof

/-- The `Opcode` variants (10_state.md R12): six names and `Reserved(n)` for exactly the ten unused codes. -/
inductive Opcode where
  | continuation | text | binary
  | reserved3 | reserved4 | reserved5 | reserved6 | reserved7
  | close | ping | pong
  | reserved11 | reserved12 | reserved13 | reserved14 | reserved15
deriving DecidableEq, Repr

/-- The opcode classes of 30_encoding.md R61. -/
inductive OpcodeClass where
  | data | control | reserved
deriving DecidableEq, Repr

/-- The seven one-hot select lines of OPC_DEMUX (40_header_model.md R83). -/
structure SelectLines where
  isContinuation : Bool
  isText : Bool
  isBinary : Bool
  isClose : Bool
  isPing : Bool
  isPong : Bool
  isReserved : Bool
deriving DecidableEq, Repr

/-- The length classes of 41_length_coder.md R110. -/
inductive LenClass where
  | inline | ext16 | ext64
deriving DecidableEq, Repr

/-- The decoder's mode `d_mode` (10_state.md R20). -/
inductive Mode where
  /-- 0: the peer is a server; every frame must have MASK = 0. -/
  | expectUnmasked
  /-- 1: the peer is a client; every frame must have MASK = 1. -/
  | expectMasked
deriving DecidableEq, Repr

/-- The closed list of error kinds (60_exceptions.md R170), each without an argument (R179). -/
inductive ErrorKind where
  | invalidOpcode | invalidLength | lengthMismatch | incomplete | protocolError
deriving DecidableEq, Repr

/-- The operand bits of a BYTE0 row, pattern `FRST cccc M LLLLLLL` (30_encoding.md R71): all of header bytes 0 and 1
but the opcode. -/
structure Ctl where
  fin : Bool
  rsv1 : Bool
  rsv2 : Bool
  rsv3 : Bool
  masked : Bool
  sel : Sel
deriving DecidableEq, Repr

/-- Header byte 0 as operand of a HEADER row, pattern `FRST OOOO` (30_encoding.md R52, R71). -/
structure Byte0 where
  fin : Bool
  rsv1 : Bool
  rsv2 : Bool
  rsv3 : Bool
  opcode : BitVec 4
deriving DecidableEq, Repr

/-- One constructor per row of spec/opcode_table.json (30_encoding.md R71): sixteen BYTE0 rows, one per opcode value
(40_header_model.md R88 to R103), and six HEADER rows, one per header format (30_encoding.md R51). A frame matches
exactly one row of each kind (log 2). -/
inductive Instr where
  | continuation (c : Ctl)
  | text (c : Ctl)
  | binary (c : Ctl)
  | reserved3 (c : Ctl)
  | reserved4 (c : Ctl)
  | reserved5 (c : Ctl)
  | reserved6 (c : Ctl)
  | reserved7 (c : Ctl)
  | close (c : Ctl)
  | ping (c : Ctl)
  | pong (c : Ctl)
  | reserved11 (c : Ctl)
  | reserved12 (c : Ctl)
  | reserved13 (c : Ctl)
  | reserved14 (c : Ctl)
  | reserved15 (c : Ctl)
  /-- Inline length, unmasked: 2 header bytes. -/
  | f7u (b : Byte0) (len : BitVec 7)
  /-- Inline length, masked: 6 header bytes. -/
  | f7m (b : Byte0) (len : BitVec 7) (key : Key)
  /-- 16-bit length, unmasked: 4 header bytes. -/
  | f16u (b : Byte0) (len : BitVec 16)
  /-- 16-bit length, masked: 8 header bytes. -/
  | f16m (b : Byte0) (len : BitVec 16) (key : Key)
  /-- 64-bit length (63 bits and the reserved top bit 0), unmasked: 10 header bytes. -/
  | f64u (b : Byte0) (len : BitVec 63)
  /-- 64-bit length, masked: 14 header bytes. -/
  | f64m (b : Byte0) (len : BitVec 63) (key : Key)
deriving DecidableEq, Repr

/-- The two kinds of row of the table (30_encoding.md R71). -/
inductive RowKind where
  | byte0 | header
deriving DecidableEq, Repr

end Sys2Proof
end

