-- ==== Sys2Proof/WellFormed.lean ====
section
/-! DEFINITION. Which terms of `Instr` are instructions: the one constraint of the table a bit width cannot express. -/

namespace Sys2Proof

/-- The inline length of rows F7U and F7M is at most 125 (30_encoding.md R51, R71: "the constraint `L <= 125`, which a
bit pattern cannot express"): 126 and 127 are escape codes, never literal lengths. -/
def inlineLengthOk (len : BitVec 7) : Bool := len.toNat ≤ 125

/-- An instruction term that some frame encodes. Every operand value of a BYTE0 row is one (any selector, any MASK);
so is every value of the 16-bit and 63-bit length fields, the non-minimal ones included (30_encoding.md R65). -/
def Instr.wf : Instr → Bool
  | .continuation _ => true
  | .text _ => true
  | .binary _ => true
  | .reserved3 _ => true
  | .reserved4 _ => true
  | .reserved5 _ => true
  | .reserved6 _ => true
  | .reserved7 _ => true
  | .close _ => true
  | .ping _ => true
  | .pong _ => true
  | .reserved11 _ => true
  | .reserved12 _ => true
  | .reserved13 _ => true
  | .reserved14 _ => true
  | .reserved15 _ => true
  | .f7u _ len => inlineLengthOk len
  | .f7m _ len _ => inlineLengthOk len
  | .f16u _ _ => true
  | .f16m _ _ _ => true
  | .f64u _ _ => true
  | .f64m _ _ _ => true

end Sys2Proof
end

