-- ==== Sys2Proof/Decode.lean ====
section
/-! DEFINITION. Bits and bytes of a frame header: byte orders, bit fields, the opcode table, the decoder of
spec/opcode_table.json's rows (total on any bytes, rejecting by name) and, after it, the encoder. -/

namespace Sys2Proof

/-! ### Byte order (20_memory.md R31; notation table of 00_scope.md R8) -/

/-- `be_16`: first byte most significant. -/
def be16 (x0 x1 : Byte) : BitVec 16 := x0 ++ x1

/-- `to_be_16`. -/
def toBe16 (v : BitVec 16) : Bytes := [v.extractLsb' 8 8, v.extractLsb' 0 8]

/-- `be_64`: first byte most significant. -/
def be64 (x0 x1 x2 x3 x4 x5 x6 x7 : Byte) : BitVec 64 :=
  x0 ++ x1 ++ x2 ++ x3 ++ x4 ++ x5 ++ x6 ++ x7

/-- `to_be_64`. -/
def toBe64 (v : BitVec 64) : Bytes :=
  [v.extractLsb' 56 8, v.extractLsb' 48 8, v.extractLsb' 40 8, v.extractLsb' 32 8,
   v.extractLsb' 24 8, v.extractLsb' 16 8, v.extractLsb' 8 8, v.extractLsb' 0 8]

/-- `le_32`: first byte least significant (KEY_FROM_BYTES, 42_masking.md R121). -/
def le32 (k0 k1 k2 k3 : Byte) : BitVec 32 := k3 ++ k2 ++ k1 ++ k0

/-- `K[i mod 4]` of a key: bits `8j+7` to `8j` with `j = i mod 4` (42_masking.md R120, 20_memory.md R32). -/
def keyByte (key : Key) (i : Nat) : Byte := key.extractLsb' (8 * (i % 4)) 8

/-- `to_le_32`: the four key bytes `K[0..3]`, least significant first (KEY_BYTES, 42_masking.md R120). -/
def toLe32 (key : Key) : Bytes := [keyByte key 0, keyByte key 1, keyByte key 2, keyByte key 3]

/-! ### Bit fields of the two fixed header bytes (30_encoding.md R52, R53) -/

/-- One bit as a 1-bit value. -/
def bit (b : Bool) : BitVec 1 := BitVec.ofBool b

/-- `byte0 = {FIN, RSV1, RSV2, RSV3, opcode[3:0]}` (R52). -/
def packByte0 (fin rsv1 rsv2 rsv3 : Bool) (opcode : BitVec 4) : Byte :=
  bit fin ++ bit rsv1 ++ bit rsv2 ++ bit rsv3 ++ opcode

/-- `byte1 = {MASK, sel[6:0]}` (R53). -/
def packByte1 (masked : Bool) (sel : Sel) : Byte := bit masked ++ sel

/-- Bits 3 to 0 of header byte 0 (R52). -/
def opcodeField (b0 : Byte) : BitVec 4 := b0.extractLsb' 0 4

/-- Bit 7 of header byte 1 (R53). -/
def maskField (b1 : Byte) : Bool := b1.getLsbD 7

/-- Bits 6 to 0 of header byte 1 (R53). -/
def selField (b1 : Byte) : Sel := b1.extractLsb' 0 7

/-- Header byte 0 split: FIN bit 7, RSV1 bit 6, RSV2 bit 5, RSV3 bit 4, opcode bits 3 to 0 (R52). -/
def unpackByte0 (b0 : Byte) : Byte0 where
  fin := b0.getLsbD 7
  rsv1 := b0.getLsbD 6
  rsv2 := b0.getLsbD 5
  rsv3 := b0.getLsbD 4
  opcode := opcodeField b0

/-- The operand bits of a BYTE0 row in header bytes 0 and 1 (R52, R53). -/
def unpackCtl (b0 b1 : Byte) : Ctl where
  fin := b0.getLsbD 7
  rsv1 := b0.getLsbD 6
  rsv2 := b0.getLsbD 5
  rsv3 := b0.getLsbD 4
  masked := maskField b1
  sel := selField b1

/-- `ExtSize(sel)` (41_length_coder.md R112): how many extended length bytes follow header byte 1. -/
def extSize (sel : Sel) : Nat :=
  if sel.toNat ≤ 125 then 0 else if sel.toNat = 126 then 2 else 8

/-- The size `M` of the key field (30_encoding.md R51). -/
def keySize (masked : Bool) : Nat := if masked then 4 else 0

/-- The header size `2 + E + M` (30_encoding.md R51). -/
def headerSize (masked : Bool) (sel : Sel) : Nat := 2 + extSize sel + keySize masked

/-! ### The opcode table (30_encoding.md R60) -/

/-- OPC_TO_RAW (40_header_model.md R81): the 4-bit code of a variant. Only Text = 1 is pinned by the source; the other
five named codes are the spec's, from general knowledge (93_implementation_defined.md G1, log 5). -/
def Opcode.code : Opcode → BitVec 4
  | .continuation => 0
  | .text => 1
  | .binary => 2
  | .reserved3 => 3
  | .reserved4 => 4
  | .reserved5 => 5
  | .reserved6 => 6
  | .reserved7 => 7
  | .close => 8
  | .ping => 9
  | .pong => 10
  | .reserved11 => 11
  | .reserved12 => 12
  | .reserved13 => 13
  | .reserved14 => 14
  | .reserved15 => 15

/-- The variant of a 4-bit code (OPC_DEMUX's first output, 40_header_model.md R83); the inverse of `Opcode.code`. -/
def Opcode.ofCode (c : BitVec 4) : Opcode :=
  match c.toNat with
  | 0 => .continuation
  | 1 => .text
  | 2 => .binary
  | 3 => .reserved3
  | 4 => .reserved4
  | 5 => .reserved5
  | 6 => .reserved6
  | 7 => .reserved7
  | 8 => .close
  | 9 => .ping
  | 10 => .pong
  | 11 => .reserved11
  | 12 => .reserved12
  | 13 => .reserved13
  | 14 => .reserved14
  | _ => .reserved15

/-- The BYTE0 row of an opcode variant, with its operand bits. -/
def Instr.ofOpcode (o : Opcode) (c : Ctl) : Instr :=
  match o with
  | .continuation => .continuation c
  | .text => .text c
  | .binary => .binary c
  | .reserved3 => .reserved3 c
  | .reserved4 => .reserved4 c
  | .reserved5 => .reserved5 c
  | .reserved6 => .reserved6 c
  | .reserved7 => .reserved7 c
  | .close => .close c
  | .ping => .ping c
  | .pong => .pong c
  | .reserved11 => .reserved11 c
  | .reserved12 => .reserved12 c
  | .reserved13 => .reserved13 c
  | .reserved14 => .reserved14 c
  | .reserved15 => .reserved15 c

/-- Which kind of row an instruction is (30_encoding.md R71). -/
def Instr.kind : Instr → RowKind
  | .continuation _ | .text _ | .binary _ | .reserved3 _ | .reserved4 _ | .reserved5 _ | .reserved6 _
  | .reserved7 _ | .close _ | .ping _ | .pong _ | .reserved11 _ | .reserved12 _ | .reserved13 _
  | .reserved14 _ | .reserved15 _ => .byte0
  | .f7u _ _ | .f7m _ _ _ | .f16u _ _ | .f16m _ _ _ | .f64u _ _ | .f64m _ _ _ => .header

/-- The MASK bit of the frame an instruction is a row of (30_encoding.md R51, R53). -/
def Instr.maskBit : Instr → Bool
  | .continuation c | .text c | .binary c | .reserved3 c | .reserved4 c | .reserved5 c | .reserved6 c
  | .reserved7 c | .close c | .ping c | .pong c | .reserved11 c | .reserved12 c | .reserved13 c
  | .reserved14 c | .reserved15 c => c.masked
  | .f7u _ _ | .f16u _ _ | .f64u _ _ => false
  | .f7m _ _ _ | .f16m _ _ _ | .f64m _ _ _ => true

/-! ### The decoder -/

/-- Why bytes give no row of the kind asked for. -/
inductive DecodeError where
  /-- Fewer than two bytes: the fixed header is not there (44_decoder.md R147). -/
  | fixedHeaderMissing
  /-- The extended length or the key is cut short. -/
  | headerCutShort
  /-- Selector 127 with the reserved top bit of the length set: no HEADER row has it (30_encoding.md R64). -/
  | reservedTopBit
deriving DecidableEq, Repr

/-- The BYTE0 row of a frame: the row its opcode field selects. -/
def decodeOpcodeRow : Bytes → Except DecodeError Instr
  | b0 :: b1 :: _ => .ok (.ofOpcode (.ofCode (opcodeField b0)) (unpackCtl b0 b1))
  | _ => .error .fixedHeaderMissing

/-- The four key bytes at the front of what follows the length. -/
def decodeKey : Bytes → Option Key
  | k0 :: k1 :: k2 :: k3 :: _ => some (le32 k0 k1 k2 k3)
  | _ => none

/-- A masked HEADER row from what follows the length, or the named rejection. -/
def decodeMaskedRow (row : Key → Instr) (rest : Bytes) : Except DecodeError Instr :=
  match decodeKey rest with
  | some key => .ok (row key)
  | none => .error .headerCutShort

/-- The HEADER row of a frame: the format its selector and MASK bit select (30_encoding.md R51, R54), with the whole
header's operands (R55 to R58). -/
def decodeHeaderRow : Bytes → Except DecodeError Instr
  | b0 :: b1 :: rest =>
    let b := unpackByte0 b0
    let sel := selField b1
    if sel.toNat ≤ 125 then
      if maskField b1 then decodeMaskedRow (.f7m b sel) rest else .ok (.f7u b sel)
    else if sel.toNat = 126 then
      match rest with
      | x0 :: x1 :: rest' =>
        if maskField b1 then decodeMaskedRow (.f16m b (be16 x0 x1)) rest' else .ok (.f16u b (be16 x0 x1))
      | _ => .error .headerCutShort
    else
      match rest with
      | x0 :: x1 :: x2 :: x3 :: x4 :: x5 :: x6 :: x7 :: rest' =>
        if x0.getLsbD 7 then .error .reservedTopBit
        else
          let len := (be64 x0 x1 x2 x3 x4 x5 x6 x7).setWidth 63
          if maskField b1 then decodeMaskedRow (.f64m b len) rest' else .ok (.f64u b len)
      | _ => .error .headerCutShort
  | _ => .error .fixedHeaderMissing

/-- The row of one kind that bytes give. -/
def decodeRow : RowKind → Bytes → Except DecodeError Instr
  | .byte0, bs => decodeOpcodeRow bs
  | .header, bs => decodeHeaderRow bs

/-- The row `step` runs for a frame (log 2). A frame matches one row of each kind (30_encoding.md R71) and both mean the
same DECODE, so one of the two is picked: the row that spans the whole header. A 2-byte header is spanned by its BYTE0
row; a longer one by its HEADER row. A header that is not whole, or has the reserved top bit set, matches no HEADER row,
and its BYTE0 row's meaning finds the error in stream order (60_exceptions.md R174). -/
def decodeInstr : Bytes → Except DecodeError Instr
  | b0 :: b1 :: rest =>
    if maskField b1 || 125 < (selField b1).toNat then
      match decodeHeaderRow (b0 :: b1 :: rest) with
      | .ok i => .ok i
      | .error _ => decodeOpcodeRow (b0 :: b1 :: rest)
    else decodeOpcodeRow (b0 :: b1 :: rest)
  | _ => .error .fixedHeaderMissing

/-! ### The encoder -/

/-- The two bytes of a BYTE0 row (30_encoding.md R52, R53). -/
def encodeCtl (o : Opcode) (c : Ctl) : Bytes :=
  [packByte0 c.fin c.rsv1 c.rsv2 c.rsv3 o.code, packByte1 c.masked c.sel]

/-- The two fixed bytes of a HEADER row (30_encoding.md R51 to R53). -/
def encodeFixed (b : Byte0) (masked : Bool) (sel : Sel) : Bytes :=
  [packByte0 b.fin b.rsv1 b.rsv2 b.rsv3 b.opcode, packByte1 masked sel]

/-- The bytes of a row: the two fixed header bytes for a BYTE0 row, the whole header for a HEADER row
(30_encoding.md R51, R71): extended length big-endian, key little-endian, top bit of the 64-bit form 0. -/
def encode : Instr → Bytes
  | .continuation c => encodeCtl .continuation c
  | .text c => encodeCtl .text c
  | .binary c => encodeCtl .binary c
  | .reserved3 c => encodeCtl .reserved3 c
  | .reserved4 c => encodeCtl .reserved4 c
  | .reserved5 c => encodeCtl .reserved5 c
  | .reserved6 c => encodeCtl .reserved6 c
  | .reserved7 c => encodeCtl .reserved7 c
  | .close c => encodeCtl .close c
  | .ping c => encodeCtl .ping c
  | .pong c => encodeCtl .pong c
  | .reserved11 c => encodeCtl .reserved11 c
  | .reserved12 c => encodeCtl .reserved12 c
  | .reserved13 c => encodeCtl .reserved13 c
  | .reserved14 c => encodeCtl .reserved14 c
  | .reserved15 c => encodeCtl .reserved15 c
  | .f7u b len => encodeFixed b false len
  | .f7m b len key => encodeFixed b true len ++ toLe32 key
  | .f16u b len => encodeFixed b false 126 ++ toBe16 len
  | .f16m b len key => encodeFixed b true 126 ++ toBe16 len ++ toLe32 key
  | .f64u b len => encodeFixed b false 127 ++ toBe64 (len.setWidth 64)
  | .f64m b len key => encodeFixed b true 127 ++ toBe64 (len.setWidth 64) ++ toLe32 key

/-! ### Words as spec/opcode_table.json numbers them -/

/-- The two bytes of the `k`-th 16-bit word of `w`: the table takes its words with "byte 0 as the high byte" (R71). -/
def tableWord (w k : Nat) : Bytes :=
  [BitVec.ofNat 8 (w / 2 ^ (16 * k + 8)), BitVec.ofNat 8 (w / 2 ^ (16 * k))]

/-- The 14 bytes (the longest header, R51) of a table word of `nbits` bits, the bits above `nbits` zero. -/
def tableBytes (nbits w : Nat) : Bytes :=
  let v := w % 2 ^ nbits
  tableWord v 0 ++ tableWord v 1 ++ tableWord v 2 ++ tableWord v 3 ++ tableWord v 4 ++ tableWord v 5 ++ tableWord v 6

/-- The instruction the decoder reads from a table word (log 18). -/
def decodeTableWord (nbits w : Nat) : Option Instr :=
  match decodeInstr (tableBytes nbits w) with
  | .ok i => some i
  | .error _ => none

end Sys2Proof
end

