-- ==== Sys2Proof/Machine/State.lean ====
section
/-! DEFINITION. The state of the codec as plain data: the header register file, the cursor, the mode input, the byte
buffers, the result and output ports, and the operation the caller has presented (spec 10_state.md). -/

namespace Sys2Proof.Machine

/-- The header register file H (10_state.md R11): eight registers, one bank, none hard-wired. `H.masked` and `H.mask_key`
are held as one optional key, so that a key present without `masked`, or `masked` without a key, cannot be written down
(R13; 92_eei_decisions.md D7: "A model holds `Option (BitVec 32)` and derives `masked` from it"). -/
structure Header where
  fin : Bool
  rsv1 : Bool
  rsv2 : Bool
  rsv3 : Bool
  opcode : BitVec 4
  /-- 32 bits, or absent; present exactly when `masked` (R13). -/
  maskKey : Option Key
  payloadLength : Len
deriving DecidableEq, Repr

/-- `H.masked` (R11): 1 exactly when the key is present (R13). -/
def Header.masked (h : Header) : Bool := h.maskKey.isSome

/-- The operands of HDR_NEW (40_header_model.md R86): `masked` and a 32-bit key apart, as the caller supplies them; the key
is "read only when `masked = 1`". -/
structure HeaderArg where
  fin : Bool
  rsv1 : Bool
  rsv2 : Bool
  rsv3 : Bool
  opcode : BitVec 4
  masked : Bool
  maskKey : Key
  payloadLength : Len
deriving DecidableEq, Repr

/-- The operands of LEN_DEC (41_length_coder.md R112): a selector with exactly the extended bytes it calls for, so that
`len(ext) = ExtSize(sel)` holds by construction (log 11). -/
inductive LenField where
  /-- Selector at most 125, no extended bytes. -/
  | inline (sel : Fin 126)
  /-- Selector 126 and two bytes. -/
  | ext16 (x0 x1 : Byte)
  /-- Selector 127 and eight bytes. -/
  | ext64 (x0 x1 x2 x3 x4 x5 x6 x7 : Byte)
deriving DecidableEq, Repr

/-- The seventeen operations (30_encoding.md, table after R71) with the operands that are neither header registers nor
buffers. "They have no binary encoding" (92_eei_decisions.md D2). -/
inductive Call where
  | opcFromRaw (n : Nat)
  | opcToRaw (v : Opcode)
  | isControl
  | opcDemux
  | ctlPack (sel : Sel)
  | ctlUnpack (byte0 byte1 : Byte)
  | hdrNew (arg : HeaderArg)
  | lenClass
  | lenEnc
  | lenDec (f : LenField)
  | keyBytes
  | keyFromBytes (k0 k1 k2 k3 : Byte)
  | applyMask (key : Key)
  | applyMaskWide (key : Key)
  | encode
  | encodeMsg (opcode : BitVec 4) (fin : Bool) (key : Option Key)
  | decode
deriving DecidableEq, Repr

/-- The result of an operation (00_scope.md R7): its outputs are delivered, or one error kind and nothing else. -/
inductive Result where
  | ok
  | err (k : ErrorKind)
deriving DecidableEq, Repr

/-- The outputs of the operations that are neither header registers nor buffers. -/
structure Ports where
  /-- OPC_TO_RAW (40_header_model.md R81). -/
  rawCode : BitVec 4
  /-- IS_CONTROL (R82). -/
  control : Bool
  /-- OPC_DEMUX (R83); the seven select lines are `selectLines` of it. -/
  variant : Opcode
  cls : OpcodeClass
  /-- CTL_PACK (R84). -/
  byte0 : Byte
  byte1 : Byte
  /-- CTL_UNPACK (R85) and LEN_ENC (41_length_coder.md R111). -/
  sel : Sel
  /-- LEN_ENC. -/
  ext : Bytes
  /-- LEN_CLASS (R110). -/
  lenClass : LenClass
  /-- KEY_BYTES (42_masking.md R120). -/
  keyBytes : Bytes
deriving DecidableEq, Repr

/-- The state: INVENTORY.md, "State", names the rule of each field. -/
structure State where
  /-- Header registers (10_state.md R11). -/
  h : Header
  /-- The decoder's byte cursor (R18). -/
  pos : Nat
  /-- The count of bytes consumed that the last successful DECODE returned (R18, 44_decoder.md R154). -/
  consumed : Nat
  /-- The masking pipeline's key phase `i mod 4` (R24, R25). -/
  keyPhase : BitVec 2
  /-- The mode input `d_mode` (R20); no operation writes it. -/
  dMode : Mode
  /-- `IN` (R23). -/
  wireIn : Bytes
  /-- `PAY` (R23). -/
  pay : Bytes
  /-- `BUF` (R23). -/
  buf : Bytes
  /-- `OUT` (R23). -/
  wireOut : Bytes
  /-- `POUT` (R23). -/
  payOut : Bytes
  ports : Ports
  /-- The result of the last operation; none before the first (R25). -/
  result : Option Result
  /-- The operation in progress; none between operations (R25). -/
  call : Option Call
deriving DecidableEq, Repr

/-- Why the machine could stop with a fault: never. "All errors are returned as explicit result values, never as a
crash", and "no input makes an operation crash, hang or return garbage" (60_exceptions.md R170). No constructor: nobody
raises one (log 16; safe). -/
inductive Fault where
deriving DecidableEq, Repr

/-- Why an instruction could have no meaning. -/
inductive Refusal where
  /-- Raised by an arm of `exec` whose instruction has no meaning yet; no arm raises it (safe). -/
  | notModelled (mnemonic : String)
deriving DecidableEq, Repr

/-- The header registers after reset: the spec leaves them unspecified (10_state.md R25); DESIGN CHOICE (log 4). -/
def Header.reset : Header where
  fin := false
  rsv1 := false
  rsv2 := false
  rsv3 := false
  opcode := 0
  maskKey := none
  payloadLength := 0

/-- The output ports after reset; DESIGN CHOICE (log 4). -/
def Ports.reset : Ports where
  rawCode := 0
  control := false
  variant := .continuation
  cls := .data
  byte0 := 0
  byte1 := 0
  sel := 0
  ext := []
  lenClass := .inline
  keyBytes := [0, 0, 0, 0]

/-- After reset: "no operation in progress" and no result (10_state.md R25); every other value is unspecified there and a
DESIGN CHOICE here (log 4). -/
def State.reset : State where
  h := .reset
  pos := 0
  consumed := 0
  keyPhase := 0
  dMode := .expectUnmasked
  wireIn := []
  pay := []
  buf := []
  wireOut := []
  payOut := []
  ports := .reset
  result := none
  call := none

end Sys2Proof.Machine
end

