-- ==== Sys2Proof/Machine/Ops.lean ====
section
/-! DEFINITION. The shared operations over buffers and registers: the build's parameters, the bounds-checked read, the
append, the absent key, the end of an operation, and taking an error (the codec's exception). -/

namespace Sys2Proof.Machine

/-- The parameters this build runs with: the spec's defaults (00_scope.md R5; log 6 to 10). -/
def buildParams : Params := Params.standard

/-- One byte of a buffer at a byte offset; an offset is valid when it is below the buffer's length (20_memory.md R30). -/
def readByte (b : Bytes) (a : Nat) : Option Byte := b[a]?

/-- A buffer as address and byte pairs, from an address on. -/
def cellsFrom : Nat → Bytes → List Host.Cell
  | _, [] => []
  | a, b :: bs => (a, b) :: cellsFrom (a + 1) bs

/-- A buffer as memory cells: its address space is its byte offsets (20_memory.md R30; log 11). -/
def Memory.cells (b : Bytes) : List Host.Cell := cellsFrom 0 b

/-- The canonical form of memory cells: addresses strictly rising. An unlisted address reads as nothing (R36), so no entry
can equal what it reads as. -/
def Memory.wf : List Host.Cell → Bool
  | [] => true
  | [_] => true
  | x :: y :: rest => decide (x.1 < y.1) && Memory.wf (y :: rest)

/-- `MemRead(addr, n)` (00_scope.md R8): the `n` bytes at offsets `addr` to `addr+n-1`, meant for `addr + n <= len`. -/
def memRead (b : Bytes) (addr n : Nat) : Bytes := (b.drop addr).take n

/-- `Fetch(n)` at the cursor `pos` (20_memory.md R36, R45): the bytes and the advanced cursor, or `Incomplete`. -/
def fetch (inp : Bytes) (pos n : Nat) : Except ErrorKind (Bytes × Nat) :=
  if pos + n ≤ inp.length then .ok (memRead inp pos n, pos + n) else .error .incomplete

/-- `Emit(s)`: `MemWrite(len(OUT), len(s), s)`, an append (20_memory.md R37, R45). -/
def emit (out s : Bytes) : Bytes := out ++ s

/-- The end of an operation that returns `OK`: the result says so and no operation is in progress (R7, R25). -/
def State.done (s : State) : State := { s with result := some .ok, call := none }

/-- TAKING AN ERROR (60_exceptions.md R176): the operation ends with `Err(kind)` "and nothing else"; "It changes
nothing". There is no mode switch, no saved cursor and no vector, and so nothing to return from or to restore
(R176, R184): the next operation "behaves as the first ever did" (R180). -/
def State.raise (s : State) (k : ErrorKind) : State := { s with result := some (.err k), call := none }

/-- The numeric code of a result (60_exceptions.md R171). -/
def Result.code : Result → Nat
  | .ok => 0
  | .err .invalidOpcode => 1
  | .err .invalidLength => 2
  | .err .lengthMismatch => 3
  | .err .incomplete => 4
  | .err .protocolError => 5

/-- Only `Incomplete` is retriable (60_exceptions.md R171, R177). -/
def ErrorKind.retriable : ErrorKind → Bool
  | .incomplete => true
  | .invalidOpcode | .invalidLength | .lengthMismatch | .protocolError => false

end Sys2Proof.Machine
end

