-- ==== Sys2Proof/Machine/Operands.lean ====
section
/-! DEFINITION. The operand forms: the payload-length coder in its three forms (spec 41_length_coder.md) and the key as
four bytes (42_masking.md R120, R121). -/

namespace Sys2Proof.Machine

/-- LEN_CLASS (R110): the narrowest form a length fits. -/
def lenClassOf (n : Len) : LenClass :=
  if n.toNat ≤ 125 then .inline else if n.toNat ≤ 65535 then .ext16 else .ext64

/-- LEN_ENC (R111): the selector and the extended bytes, big-endian. -/
def lenEnc (n : Len) : Sel × Bytes :=
  match lenClassOf n with
  | .inline => (n.setWidth 7, [])
  | .ext16 => (126, toBe16 (n.setWidth 16))
  | .ext64 => (127, toBe64 n)

/-- The selector of a length field. -/
def LenField.sel : LenField → Sel
  | .inline v => BitVec.ofNat 7 v.val
  | .ext16 _ _ => 126
  | .ext64 _ _ _ _ _ _ _ _ => 127

/-- The extended bytes of a length field. -/
def LenField.ext : LenField → Bytes
  | .inline _ => []
  | .ext16 x0 x1 => [x0, x1]
  | .ext64 x0 x1 x2 x3 x4 x5 x6 x7 => [x0, x1, x2, x3, x4, x5, x6, x7]

/-- The form a length field is written in. -/
def LenField.form : LenField → LenClass
  | .inline _ => .inline
  | .ext16 _ _ => .ext16
  | .ext64 _ _ _ _ _ _ _ _ => .ext64

/-- The value of a length field, zero-extended to 64 bits (30_encoding.md R55, R56, R57). -/
def LenField.value : LenField → Len
  | .inline v => BitVec.ofNat 64 v.val
  | .ext16 x0 x1 => (be16 x0 x1).setWidth 64
  | .ext64 x0 x1 x2 x3 x4 x5 x6 x7 => be64 x0 x1 x2 x3 x4 x5 x6 x7

/-- Parameter `require_minimal_length` (D9): with it set, a length in a wider form than LEN_CLASS gives is refused. -/
def minimalFault (p : Params) (form : LenClass) (n : Len) : Option ErrorKind :=
  if p.requireMinimalLength && lenClassOf n != form then some .invalidLength else none

/-- LEN_DEC (R112): the value, or `InvalidLength` when bit 63 is set, which only the 64-bit form can have. -/
def lenDec (p : Params) (f : LenField) : Except ErrorKind Len :=
  if f.value.getLsbD 63 then .error .invalidLength
  else
    match minimalFault p f.form f.value with
    | some e => .error e
    | none => .ok f.value

/-- The length field of a selector and the bytes that follow it; none when their number is not `ExtSize(sel)` (R112). -/
def LenField.ofBytes (sel : Sel) (ext : Bytes) : Option LenField :=
  if hs : sel.toNat ≤ 125 then some (.inline ⟨sel.toNat, Nat.lt_succ_of_le hs⟩)
  else if sel.toNat = 126 then
    match ext with
    | [x0, x1] => some (.ext16 x0 x1)
    | _ => none
  else
    match ext with
    | [x0, x1, x2, x3, x4, x5, x6, x7] => some (.ext64 x0 x1 x2 x3 x4 x5 x6 x7)
    | _ => none

/-- Stage S1's fetch of the length (44_decoder.md R146): the `ExtSize(sel)` bytes after header byte 1, and the cursor. -/
def fetchLenField (inp : Bytes) (pos : Nat) (sel : Sel) : Except ErrorKind (LenField × Nat) :=
  match fetch inp pos (extSize sel) with
  | .error e => .error e
  | .ok (ext, pos') =>
    match LenField.ofBytes sel ext with
    | some f => .ok (f, pos')
    | none => .error .incomplete

/-- Stage S2's fetch of the key (44_decoder.md R146): four bytes, little-endian (KEY_FROM_BYTES, 42_masking.md R121). -/
def fetchKey (inp : Bytes) (pos : Nat) : Except ErrorKind (Key × Nat) :=
  match fetch inp pos 4 with
  | .ok ([k0, k1, k2, k3], pos') => .ok (le32 k0 k1 k2 k3, pos')
  | _ => .error .incomplete

/-- KEY_BYTES (42_masking.md R120). -/
def keyBytesOf (key : Key) : Bytes := toLe32 key

/-- `rot(key, r)`: the key whose bytes are `K'[j] = K[(j + r) mod 4]`, rotated right by `8r` bits (42_masking.md R126). -/
def rotKey (key : Key) (r : Nat) : Key := key.rotateRight (8 * (r % 4))

end Sys2Proof.Machine
end

