-- ==== Sys2Proof/Machine/Flags.lean ====
section
/-! DEFINITION. The single-bit computations: the control-bit extractor, the opcode demultiplexer's class and select
lines, and the checks of the validator and of the mode (spec 40_header_model.md, 44_decoder.md R148 to R151). -/

namespace Sys2Proof.Machine

/-- IS_CONTROL (R82): exactly codes 8, 9 and 10. -/
def isControlCode (c : BitVec 4) : Bool := c == 8 || c == 9 || c == 10

/-- Which codes get the control-frame checks: IS_CONTROL, or bit 3 of the code under `control_set = BIT3` (D4). -/
def controlChecked (p : Params) (c : BitVec 4) : Bool :=
  match p.controlSet with
  | .named => isControlCode c
  | .bit3 => c.getLsbD 3

/-- The class of a variant (30_encoding.md R61, OPC_DEMUX R83). -/
def classOf : Opcode → OpcodeClass
  | .continuation | .text | .binary => .data
  | .close | .ping | .pong => .control
  | .reserved3 | .reserved4 | .reserved5 | .reserved6 | .reserved7
  | .reserved11 | .reserved12 | .reserved13 | .reserved14 | .reserved15 => .reserved

/-- The seven select lines of a variant (R83): exactly one is 1. -/
def selectLines (o : Opcode) : SelectLines where
  isContinuation := o == .continuation
  isText := o == .text
  isBinary := o == .binary
  isClose := o == .close
  isPing := o == .ping
  isPong := o == .pong
  isReserved := classOf o == .reserved

/-- CTL_PACK (R84): the two fixed header bytes of header registers and a selector. -/
def ctlPack (h : Header) (sel : Sel) : Byte × Byte :=
  (packByte0 h.fin h.rsv1 h.rsv2 h.rsv3 h.opcode, packByte1 h.masked sel)

/-- What the pair `H.masked`, `H.mask_key` is after the MASK bit is written (10_state.md R13): with MASK = 0 the key is absent;
with MASK = 1 the key that was there stays, or is a FREE VALUE until one is read (log 13). -/
def maskAfterUnpack (key : Option Key) (byte0 byte1 : Byte) : Option Key :=
  if maskField byte1 then some (key.getD (Config.unwrittenKey byte0 byte1)) else none

/-- CTL_UNPACK (R85): the six header registers written from the two fixed header bytes; the length stays. -/
def ctlUnpack (h : Header) (byte0 byte1 : Byte) : Header :=
  let b := unpackByte0 byte0
  { h with fin := b.fin, rsv1 := b.rsv1, rsv2 := b.rsv2, rsv3 := b.rsv3, opcode := b.opcode,
           maskKey := maskAfterUnpack h.maskKey byte0 byte1 }

/-- Checks V2 and V3 (R86, R87) in that order, as DECODE makes them once the length is known (44_decoder.md R150, R151);
V3 is under the parameter `check_control_fin` (D5). -/
def controlFault (p : Params) (opcode : BitVec 4) (fin : Bool) (n : Len) : Option ErrorKind :=
  if controlChecked p opcode && 125 < n.toNat then some .invalidLength
  else if controlChecked p opcode && p.checkControlFin && !fin then some .protocolError
  else none

/-- The validator's checks V1, V2, V3 (R86) in that order: the first that fails, if any. -/
def headerFault (p : Params) (opcode : BitVec 4) (fin : Bool) (n : Len) : Option ErrorKind :=
  if 2 ^ 63 ≤ n.toNat then some .invalidLength
  else controlFault p opcode fin n

/-- The mode check (44_decoder.md R148): `ProtocolError` when MASK differs from what the mode expects; the direction of
`EXPECT_UNMASKED` is under the parameter `reject_masked_when_unmasked_expected` (D8). -/
def modeFault (p : Params) (m : Mode) (masked : Bool) : Option ErrorKind :=
  match m, masked with
  | .expectMasked, false => some .protocolError
  | .expectUnmasked, true => if p.rejectMaskedWhenUnmaskedExpected then some .protocolError else none
  | _, _ => none

end Sys2Proof.Machine
end

