-- ==== Sys2Proof/Machine/Masking.lean ====
section
/-! DEFINITION. The XOR masking pipeline (spec 42_masking.md): the byte-wise cipher and the wide-word cascade. -/

namespace Sys2Proof.Machine

/-- The byte-wise loop of R122 from buffer position `i` on: position `i` is XORed with `K[i mod 4]`. -/
def maskFrom (key : Key) : Nat → Bytes → Bytes
  | _, [] => []
  | i, b :: bs => (b ^^^ keyByte key i) :: maskFrom key (i + 1) bs

/-- APPLY_MASK (R122), as the new contents of `BUF`: the phase at the first byte is 0. -/
def applyMask (key : Key) (buf : Bytes) : Bytes := maskFrom key 0 buf

/-- The key phase after masking `n` bytes from phase 0 (10_state.md R24; log 14). -/
def phaseAfter (n : Nat) : BitVec 2 := BitVec.ofNat 2 n

/-- Word XORs over a chunk whose length is a multiple of 4 (R125): the word `le_32(BUF[i..i+4))` XOR the key, stored back
little-endian. -/
def maskWords (key : Key) : Bytes → Bytes
  | b0 :: b1 :: b2 :: b3 :: rest => toLe32 (le32 b0 b1 b2 b3 ^^^ key) ++ maskWords key rest
  | rest => rest

/-- `while L - i >= w` of R125, with fuel: the masked chunks of width `w`, and the bytes that remain. -/
def maskChunks (key : Key) (w : Nat) : Nat → Bytes → Bytes × Bytes
  | 0, bs => ([], bs)
  | fuel + 1, bs =>
    if w ≤ bs.length then
      (maskWords key (bs.take w) ++ (maskChunks key w fuel (bs.drop w)).1, (maskChunks key w fuel (bs.drop w)).2)
    else ([], bs)

/-- The cascade of R125 over a list of chunk widths; what the last width leaves is masked byte by byte from phase 0. -/
def maskCascade (key : Key) : List Nat → Bytes → Bytes
  | [], bs => maskFrom key 0 bs
  | w :: ws, bs =>
    (maskChunks key w bs.length bs).1 ++ maskCascade key ws (maskChunks key w bs.length bs).2

/-- APPLY_MASK_WIDE (R125): chunks of 128, 64, 32, 16, 8 and 4 bytes, then bytes. An executor twin of `applyMask` (R127). -/
def applyMaskWide (key : Key) (buf : Bytes) : Bytes := maskCascade key [128, 64, 32, 16, 8, 4] buf

end Sys2Proof.Machine
end

