-- ==== Sys2Proof/Machine/Encoder.lean ====
section
/-! DEFINITION. The frame encoder (spec 43_encoder.md). -/

namespace Sys2Proof.Machine

/-- The header HDR_NEW constructs (40_header_model.md R86): its operands, a key supplied with `masked = 0` dropped
(10_state.md R13). -/
def newHeader (arg : HeaderArg) : Header where
  fin := arg.fin
  rsv1 := arg.rsv1
  rsv2 := arg.rsv2
  rsv3 := arg.rsv3
  opcode := arg.opcode
  maskKey := if arg.masked then some arg.maskKey else none
  payloadLength := arg.payloadLength

/-- Step 3 of ENCODE (R131): header bytes, extended length, then key and masked private copy, or the payload unmodified. -/
def emitFrame (h : Header) (pay : Bytes) : Bytes :=
  let (sel, ext) := lenEnc h.payloadLength
  let (byte0, byte1) := ctlPack h sel
  let out := emit (emit [] [byte0, byte1]) ext
  match h.maskKey with
  | some key => emit (emit out (keyBytesOf key)) (applyMask key pay)
  | none => emit out pay

/-- ENCODE (R131): the checks V1, V2, V3, then `LengthMismatch` (R132), then the frame's bytes. -/
def encodeFrame (p : Params) (h : Header) (pay : Bytes) : Except ErrorKind Bytes :=
  match headerFault p h.opcode h.fin h.payloadLength with
  | some e => .error e
  | none => if pay.length ≠ h.payloadLength.toNat then .error .lengthMismatch else .ok (emitFrame h pay)

/-- The header ENCODE_MSG builds (R135): reserved bits 0, the key if one is given, the payload's own length. Its
`payload_length` operand is 64 bits wide; a payload of 2^64 bytes or more, which no 64-bit length holds, is refused
before it is built (`encodeMsg`). -/
def msgHeader (opcode : BitVec 4) (fin : Bool) (key : Option Key) (len : Nat) : Header where
  fin := fin
  rsv1 := false
  rsv2 := false
  rsv3 := false
  opcode := opcode
  maskKey := key
  payloadLength := BitVec.ofNat 64 len

/-- ENCODE_MSG (R135): HDR_NEW of `msgHeader`, then ENCODE. "payload of 2^63 bytes or more" is `InvalidLength` (check V1, made
on the payload's own length, a natural number). -/
def encodeMsg (p : Params) (opcode : BitVec 4) (fin : Bool) (key : Option Key) (pay : Bytes) : Except ErrorKind Bytes :=
  if 2 ^ 63 ≤ pay.length then .error .invalidLength
  else encodeFrame p (msgHeader opcode fin key pay.length) pay

end Sys2Proof.Machine
end

