-- ==== Sys2Proof/Machine/Decoder.lean ====
section
/-! DEFINITION. The frame decoder (spec 44_decoder.md): DECODE in stream order from the fixed header on, and from a
whole header on; taking its result into the state. -/

namespace Sys2Proof.Machine

/-- What DECODE returns on success (R146): the header, the unmasked payload, and the count of bytes consumed. -/
structure Decoded where
  header : Header
  payload : Bytes
  consumed : Nat
deriving DecidableEq, Repr

/-- The decoder's result header of the opcode, the operand bits, the length and the key read. -/
def wireHeader (opcode : BitVec 4) (fin rsv1 rsv2 rsv3 : Bool) (n : Len) (key : Option Key) : Header where
  fin := fin
  rsv1 := rsv1
  rsv2 := rsv2
  rsv3 := rsv3
  opcode := opcode
  maskKey := key
  payloadLength := n

/-- Unmasking (R152): the cipher with the frame's key, or the wire bytes as they stand. -/
def unmask (key : Option Key) (raw : Bytes) : Bytes :=
  match key with
  | some k => applyMask k raw
  | none => raw

/-- Stage S3 (R146, R157): fetch the declared payload, unmask the copy, count what was consumed. -/
def receivePayload (inp : Bytes) (pos : Nat) (h : Header) : Except ErrorKind Decoded :=
  match fetch inp pos h.payloadLength.toNat with
  | .error e => .error e
  | .ok (raw, pos') => .ok { header := h, payload := unmask h.maskKey raw, consumed := pos' }

/-- Stage S2 (R146, R157): the key when MASK = 1, absent otherwise; then stage S3. -/
def receiveKey (inp : Bytes) (pos : Nat) (opcode : BitVec 4) (c : Ctl) (n : Len) : Except ErrorKind Decoded :=
  if c.masked then
    match fetchKey inp pos with
    | .error e => .error e
    | .ok (k, pos') => receivePayload inp pos' (wireHeader opcode c.fin c.rsv1 c.rsv2 c.rsv3 n (some k))
  else receivePayload inp pos (wireHeader opcode c.fin c.rsv1 c.rsv2 c.rsv3 n none)

/-- DECODE from the two fixed header bytes on (R146): mode check, then stage S1 (length, top bit, control length, control
FIN), then S2 and S3. The first check or fetch that fails decides (60_exceptions.md R174). -/
def receiveWord (p : Params) (m : Mode) (inp : Bytes) (opcode : BitVec 4) (c : Ctl) : Except ErrorKind Decoded :=
  match modeFault p m c.masked with
  | some e => .error e
  | none =>
    match fetchLenField inp 2 c.sel with
    | .error e => .error e
    | .ok (f, pos) =>
      match lenDec p f with
      | .error e => .error e
      | .ok n =>
        match controlFault p opcode c.fin n with
        | some e => .error e
        | none => receiveKey inp pos opcode c n

/-- DECODE of a frame whose whole header (`size` bytes) has been read in the form `form`: the checks that are left, in
the order of R146, and stage S3. -/
def receiveHeader (p : Params) (m : Mode) (inp : Bytes) (size : Nat) (form : LenClass) (b : Byte0) (n : Len)
    (key : Option Key) : Except ErrorKind Decoded :=
  match modeFault p m key.isSome with
  | some e => .error e
  | none =>
    match minimalFault p form n with
    | some e => .error e
    | none =>
      match controlFault p b.opcode b.fin n with
      | some e => .error e
      | none => receivePayload inp size (wireHeader b.opcode b.fin b.rsv1 b.rsv2 b.rsv3 n key)

/-- DECODE (R146) as a function of `IN` and the mode alone: stage S0 needs both fixed header bytes (R147). -/
def decodeFrame (p : Params) (m : Mode) (inp : Bytes) : Except ErrorKind Decoded :=
  match fetch inp 0 2 with
  | .ok ([b0, b1], _) => receiveWord p m inp (opcodeField b0) (unpackCtl b0 b1)
  | _ => .error .incomplete

/-- Delivery of a decoded frame (R146, 10_state.md R18): all eight header registers, the cursor, `consumed` and `POUT`.
`IN` is not written (20_memory.md R35). -/
def State.deliver (s : State) (d : Decoded) : State :=
  State.done { s with
    h := d.header
    pos := d.consumed
    consumed := d.consumed
    payOut := d.payload
    keyPhase := if d.header.masked then phaseAfter d.payload.length else s.keyPhase }

/-- The end of a DECODE: delivery, or the error and nothing else (60_exceptions.md R176). -/
def State.finishDecode (s : State) (r : Except ErrorKind Decoded) : State :=
  match r with
  | .ok d => s.deliver d
  | .error e => s.raise e

end Sys2Proof.Machine
end

