-- ==== Sys2Proof/Machine/DataFrames.lean ====
section
/-! DEFINITION. The data opcodes' rows (spec 40_header_model.md R88 to R90): DECODE of a frame that carries them. -/

namespace Sys2Proof.Machine

/-- The meaning of a BYTE0 row (log 3): DECODE (44_decoder.md R146) of the frame in `IN` whose fixed header bytes the row
is; the rest of the frame is read from `IN`. -/
def execByte0 (o : Opcode) (c : Ctl) (s : State) : Host.Outcome State Fault Refusal :=
  .next (s.finishDecode (receiveWord buildParams s.dMode s.wireIn o.code c))

/-- `Continuation` (R88): no opcode-specific check, FIN either value, length any. -/
def execContinuation (c : Ctl) (s : State) : Host.Outcome State Fault Refusal :=
  execByte0 .continuation c s

/-- `Text` (R89): no opcode-specific check, FIN either value, length any. -/
def execText (c : Ctl) (s : State) : Host.Outcome State Fault Refusal :=
  execByte0 .text c s

/-- `Binary` (R90): no opcode-specific check, FIN either value, length any. -/
def execBinary (c : Ctl) (s : State) : Host.Outcome State Fault Refusal :=
  execByte0 .binary c s

end Sys2Proof.Machine
end

