-- ==== Sys2Proof/Machine/ControlFrames.lean ====
section
/-! DEFINITION. The control opcodes' rows (spec 40_header_model.md R96 to R98): DECODE of a frame that carries them. -/

namespace Sys2Proof.Machine

/-- `Close` (R96): payload at most 125 else `InvalidLength`, FIN set else `ProtocolError`. -/
def execClose (c : Ctl) (s : State) : Host.Outcome State Fault Refusal :=
  execByte0 .close c s

/-- `Ping` (R97): payload at most 125 else `InvalidLength`, FIN set else `ProtocolError`. -/
def execPing (c : Ctl) (s : State) : Host.Outcome State Fault Refusal :=
  execByte0 .ping c s

/-- `Pong` (R98): payload at most 125 else `InvalidLength`, FIN set else `ProtocolError`. -/
def execPong (c : Ctl) (s : State) : Host.Outcome State Fault Refusal :=
  execByte0 .pong c s

end Sys2Proof.Machine
end

