-- ==== Sys2Proof/Machine/ReservedFrames.lean ====
section
/-! DEFINITION. The reserved opcodes' rows (spec 40_header_model.md R91 to R95, R99 to R103): DECODE of a frame that carries them. -/

namespace Sys2Proof.Machine

/-- `Reserved(3)` (R91): carried unchanged, no check, FIN either value, length any. -/
def execReserved3 (c : Ctl) (s : State) : Host.Outcome State Fault Refusal :=
  execByte0 .reserved3 c s

/-- `Reserved(4)` (R92): carried unchanged, no check, FIN either value, length any. -/
def execReserved4 (c : Ctl) (s : State) : Host.Outcome State Fault Refusal :=
  execByte0 .reserved4 c s

/-- `Reserved(5)` (R93): carried unchanged, no check, FIN either value, length any. -/
def execReserved5 (c : Ctl) (s : State) : Host.Outcome State Fault Refusal :=
  execByte0 .reserved5 c s

/-- `Reserved(6)` (R94): carried unchanged, no check, FIN either value, length any. -/
def execReserved6 (c : Ctl) (s : State) : Host.Outcome State Fault Refusal :=
  execByte0 .reserved6 c s

/-- `Reserved(7)` (R95): carried unchanged, no check, FIN either value, length any. -/
def execReserved7 (c : Ctl) (s : State) : Host.Outcome State Fault Refusal :=
  execByte0 .reserved7 c s

/-- `Reserved(11)` (R99): carried unchanged, no check, FIN either value, length any. -/
def execReserved11 (c : Ctl) (s : State) : Host.Outcome State Fault Refusal :=
  execByte0 .reserved11 c s

/-- `Reserved(12)` (R100): carried unchanged, no check, FIN either value, length any. -/
def execReserved12 (c : Ctl) (s : State) : Host.Outcome State Fault Refusal :=
  execByte0 .reserved12 c s

/-- `Reserved(13)` (R101): carried unchanged, no check, FIN either value, length any. -/
def execReserved13 (c : Ctl) (s : State) : Host.Outcome State Fault Refusal :=
  execByte0 .reserved13 c s

/-- `Reserved(14)` (R102): carried unchanged, no check, FIN either value, length any. -/
def execReserved14 (c : Ctl) (s : State) : Host.Outcome State Fault Refusal :=
  execByte0 .reserved14 c s

/-- `Reserved(15)` (R103): carried unchanged, no check, FIN either value, length any. -/
def execReserved15 (c : Ctl) (s : State) : Host.Outcome State Fault Refusal :=
  execByte0 .reserved15 c s

end Sys2Proof.Machine
end

