-- ==== Sys2Proof/Machine/HeaderFormats.lean ====
section
/-! DEFINITION. The six header formats' rows (spec 30_encoding.md R51): DECODE of a frame in that format. -/

namespace Sys2Proof.Machine

/-- The meaning of a HEADER row (log 3): DECODE (44_decoder.md R146) of the frame in `IN` whose whole header the row is;
the payload is read from `IN` behind the header. -/
def execHeader (size : Nat) (form : LenClass) (b : Byte0) (n : Len) (key : Option Key) (s : State) :
    Host.Outcome State Fault Refusal :=
  .next (s.finishDecode (receiveHeader buildParams s.dMode s.wireIn size form b n key))

/-- `F7U` (R51): unmasked, 2 header bytes, payload at offset 2. -/
def execF7U (b : Byte0) (len : BitVec 7) (s : State) : Host.Outcome State Fault Refusal :=
  execHeader 2 .inline b (len.setWidth 64) none s

/-- `F7M` (R51): masked, 6 header bytes, payload at offset 6. -/
def execF7M (b : Byte0) (len : BitVec 7) (key : Key) (s : State) : Host.Outcome State Fault Refusal :=
  execHeader 6 .inline b (len.setWidth 64) (some key) s

/-- `F16U` (R51): unmasked, 4 header bytes, payload at offset 4. -/
def execF16U (b : Byte0) (len : BitVec 16) (s : State) : Host.Outcome State Fault Refusal :=
  execHeader 4 .ext16 b (len.setWidth 64) none s

/-- `F16M` (R51): masked, 8 header bytes, payload at offset 8. -/
def execF16M (b : Byte0) (len : BitVec 16) (key : Key) (s : State) : Host.Outcome State Fault Refusal :=
  execHeader 8 .ext16 b (len.setWidth 64) (some key) s

/-- `F64U` (R51): unmasked, 10 header bytes, payload at offset 10. -/
def execF64U (b : Byte0) (len : BitVec 63) (s : State) : Host.Outcome State Fault Refusal :=
  execHeader 10 .ext64 b (len.setWidth 64) none s

/-- `F64M` (R51): masked, 14 header bytes, payload at offset 14. -/
def execF64M (b : Byte0) (len : BitVec 63) (key : Key) (s : State) : Host.Outcome State Fault Refusal :=
  execHeader 14 .ext64 b (len.setWidth 64) (some key) s

end Sys2Proof.Machine
end

