-- ==== Sys2Proof/Machine/Calls.lean ====
section
/-! DEFINITION. The operations other than DECODE as they run on the state: one definition each, from the operands the
caller left in the call, the header registers and the buffers to the outputs (spec 30_encoding.md, table after R71). -/

namespace Sys2Proof.Machine

/-- OPC_FROM_RAW (40_header_model.md R80): writes `H.opcode`; `InvalidOpcode` above 15. -/
def runOpcFromRaw (n : Nat) (s : State) : State :=
  if 15 < n then s.raise .invalidOpcode
  else State.done { s with h := { s.h with opcode := BitVec.ofNat 4 n } }

/-- OPC_TO_RAW (R81). -/
def runOpcToRaw (v : Opcode) (s : State) : State :=
  State.done { s with ports := { s.ports with rawCode := v.code } }

/-- IS_CONTROL (R82) of `H.opcode`. -/
def runIsControl (s : State) : State :=
  State.done { s with ports := { s.ports with control := isControlCode s.h.opcode } }

/-- OPC_DEMUX (R83) of `H.opcode`. -/
def runOpcDemux (s : State) : State :=
  State.done { s with
    ports := { s.ports with variant := .ofCode s.h.opcode, cls := classOf (.ofCode s.h.opcode) } }

/-- CTL_PACK (R84) of the header registers and `sel`; no register is written. -/
def runCtlPack (sel : Sel) (s : State) : State :=
  State.done { s with ports := { s.ports with byte0 := (ctlPack s.h sel).1, byte1 := (ctlPack s.h sel).2 } }

/-- CTL_UNPACK (R85): six header registers and `sel`; the key is present exactly when `masked` is then 1
(10_state.md R13; log 22). -/
def runCtlUnpack (byte0 byte1 : Byte) (s : State) : State :=
  State.done { s with h := ctlUnpack s.h byte0 byte1, ports := { s.ports with sel := selField byte1 } }

/-- HDR_NEW (R86): all eight header registers, or the first failing check. -/
def runHdrNew (arg : HeaderArg) (s : State) : State :=
  match headerFault buildParams arg.opcode arg.fin arg.payloadLength with
  | some e => s.raise e
  | none => State.done { s with h := newHeader arg }

/-- LEN_CLASS (41_length_coder.md R110) of `H.payload_length`. -/
def runLenClass (s : State) : State :=
  State.done { s with ports := { s.ports with lenClass := lenClassOf s.h.payloadLength } }

/-- LEN_ENC (R111) of `H.payload_length`. -/
def runLenEnc (s : State) : State :=
  State.done { s with
    ports := { s.ports with sel := (lenEnc s.h.payloadLength).1, ext := (lenEnc s.h.payloadLength).2 } }

/-- LEN_DEC (R112): writes `H.payload_length`, or `InvalidLength`. -/
def runLenDec (f : LenField) (s : State) : State :=
  match lenDec buildParams f with
  | .error e => s.raise e
  | .ok n => State.done { s with h := { s.h with payloadLength := n } }

/-- KEY_BYTES (42_masking.md R120) of `H.mask_key`; of an absent key, the bytes of a free value (log 13). -/
def runKeyBytes (s : State) : State :=
  State.done { s with ports := { s.ports with keyBytes := keyBytesOf (s.h.maskKey.getD Config.absentKey) } }

/-- KEY_FROM_BYTES (R121): writes `H.mask_key`, which is then present, so that `masked` is 1 (10_state.md R13; log 22). -/
def runKeyFromBytes (k0 k1 k2 k3 : Byte) (s : State) : State :=
  State.done { s with h := { s.h with maskKey := some (le32 k0 k1 k2 k3) } }

/-- APPLY_MASK (R122): in place on `BUF`; cannot fail. -/
def runApplyMask (key : Key) (s : State) : State :=
  State.done { s with buf := applyMask key s.buf, keyPhase := phaseAfter s.buf.length }

/-- APPLY_MASK_WIDE (R125): the same contract by the wide cascade. -/
def runApplyMaskWide (key : Key) (s : State) : State :=
  State.done { s with buf := applyMaskWide key s.buf, keyPhase := phaseAfter s.buf.length }

/-- The end of an encode: `OUT` whole, or the error and not a byte of it (43_encoder.md R131, 20_memory.md R37). `PAY` is
not written (R134). -/
def State.finishEncode (s : State) (masked : Bool) (r : Except ErrorKind Bytes) : State :=
  match r with
  | .error e => s.raise e
  | .ok out =>
    State.done { s with wireOut := out, keyPhase := if masked then phaseAfter s.pay.length else s.keyPhase }

/-- ENCODE (43_encoder.md R131) of the header registers and `PAY`; the key is read only when `H.masked` is 1. -/
def runEncode (s : State) : State := s.finishEncode s.h.masked (encodeFrame buildParams s.h s.pay)

/-- ENCODE_MSG (R135) of its operands and `PAY`; no header register is written that the caller can see. -/
def runEncodeMsg (opcode : BitVec 4) (fin : Bool) (key : Option Key) (s : State) : State :=
  s.finishEncode key.isSome (encodeMsg buildParams opcode fin key s.pay)

end Sys2Proof.Machine
end

