-- ==== Sys2Proof/Machine/Dispatch.lean ====
section
/-! DEFINITION. The dispatch of an instruction to its meaning, one arm per row of spec/opcode_table.json. -/

namespace Sys2Proof.Machine

def exec (i : Instr) (s : State) : Host.Outcome State Fault Refusal :=
  match i with
  | .continuation c => Sys2Proof.Machine.execContinuation c s
  | .text c => Sys2Proof.Machine.execText c s
  | .binary c => Sys2Proof.Machine.execBinary c s
  | .reserved3 c => Sys2Proof.Machine.execReserved3 c s
  | .reserved4 c => Sys2Proof.Machine.execReserved4 c s
  | .reserved5 c => Sys2Proof.Machine.execReserved5 c s
  | .reserved6 c => Sys2Proof.Machine.execReserved6 c s
  | .reserved7 c => Sys2Proof.Machine.execReserved7 c s
  | .close c => Sys2Proof.Machine.execClose c s
  | .ping c => Sys2Proof.Machine.execPing c s
  | .pong c => Sys2Proof.Machine.execPong c s
  | .reserved11 c => Sys2Proof.Machine.execReserved11 c s
  | .reserved12 c => Sys2Proof.Machine.execReserved12 c s
  | .reserved13 c => Sys2Proof.Machine.execReserved13 c s
  | .reserved14 c => Sys2Proof.Machine.execReserved14 c s
  | .reserved15 c => Sys2Proof.Machine.execReserved15 c s
  | .f7u b len => Sys2Proof.Machine.execF7U b len s
  | .f7m b len key => Sys2Proof.Machine.execF7M b len key s
  | .f16u b len => Sys2Proof.Machine.execF16U b len s
  | .f16m b len key => Sys2Proof.Machine.execF16M b len key s
  | .f64u b len => Sys2Proof.Machine.execF64U b len s
  | .f64m b len key => Sys2Proof.Machine.execF64M b len key s

end Sys2Proof.Machine
end

