-- ==== Sys2Proof/Machine/Step.lean ====
section
/-! DEFINITION. One step: the operation the caller has presented, whole (spec 00_scope.md R6: "one operation is one
atomic step"). -/

namespace Sys2Proof.Machine

/-- One step (log 1). With no operation presented nothing happens ("nothing happens in the block between operations",
60_exceptions.md R181). DECODE reads the row its frame gives and runs it; with fewer than two bytes in `IN` it is
`Incomplete` (44_decoder.md R147). Every other operation runs as its rule says. -/
def step (s : State) : Host.Outcome State Fault Refusal :=
  match s.call with
  | none => .next s
  | some .decode =>
    match decodeInstr s.wireIn with
    | .ok i => exec i s
    | .error _ => .next (s.raise .incomplete)
  | some (.opcFromRaw n) => .next (runOpcFromRaw n s)
  | some (.opcToRaw v) => .next (runOpcToRaw v s)
  | some .isControl => .next (runIsControl s)
  | some .opcDemux => .next (runOpcDemux s)
  | some (.ctlPack sel) => .next (runCtlPack sel s)
  | some (.ctlUnpack byte0 byte1) => .next (runCtlUnpack byte0 byte1 s)
  | some (.hdrNew arg) => .next (runHdrNew arg s)
  | some .lenClass => .next (runLenClass s)
  | some .lenEnc => .next (runLenEnc s)
  | some (.lenDec f) => .next (runLenDec f s)
  | some .keyBytes => .next (runKeyBytes s)
  | some (.keyFromBytes k0 k1 k2 k3) => .next (runKeyFromBytes k0 k1 k2 k3 s)
  | some (.applyMask key) => .next (runApplyMask key s)
  | some (.applyMaskWide key) => .next (runApplyMaskWide key s)
  | some .encode => .next (runEncode s)
  | some (.encodeMsg opcode fin key) => .next (runEncodeMsg opcode fin key s)

/-- The caller's DECODE of a frame that begins with a table word (log 18): `IN` is the word's 14 header bytes and, when
the selector is an inline length, that many zero bytes behind them, so that the payload is whole (trailing bytes are not
read, 44_decoder.md R154); the operation is DECODE; and the mode, which every DECODE call has to state (10_state.md R20),
is the one the frame's MASK bit meets. -/
def State.withFetchWord (s : State) (nbits w : Nat) : State :=
  { s with
    call := some .decode
    wireIn := tableBytes nbits w ++
      List.replicate (if w % 2 ^ nbits % 128 ≤ 125 then w % 2 ^ nbits % 128 else 0) 0
    dMode := if (w % 2 ^ nbits).testBit 7 then .expectMasked else .expectUnmasked }

end Sys2Proof.Machine
end

