-- ==== Sys2Proof/Machine/Caller.lean ====
section
/-! DEFINITION. The caller's side (spec 70_reset_and_hazards.md R211): what it hands over for an operation, and its decode
loop (44_decoder.md R158). No step of the machine calls these: they are the moves of the outside world. -/

namespace Sys2Proof.Machine

/-- The caller hands DECODE a buffer and the mode (R211). -/
def State.presentDecode (s : State) (m : Mode) (inp : Bytes) : State :=
  { s with call := some .decode, dMode := m, wireIn := inp }

/-- The caller hands ENCODE a header and a payload (R211). -/
def State.presentEncode (s : State) (h : Header) (pay : Bytes) : State :=
  { s with call := some .encode, h := h, pay := pay }

/-- The caller hands ENCODE a header written with `masked` and a key apart: a key supplied with `masked = 0` is ignored
(10_state.md R13, 93_implementation_defined.md U16). -/
def State.presentEncodeArg (s : State) (arg : HeaderArg) (pay : Bytes) : State := s.presentEncode (newHeader arg) pay

/-- The caller hands ENCODE_MSG an opcode, FIN, an optional key and a payload (43_encoder.md R135). -/
def State.presentEncodeMsg (s : State) (opcode : BitVec 4) (fin : Bool) (key : Option Key) (pay : Bytes) : State :=
  { s with call := some (.encodeMsg opcode fin key), pay := pay }

/-- The caller hands APPLY_MASK a key and a buffer (R211). -/
def State.presentApplyMask (s : State) (key : Key) (buf : Bytes) : State :=
  { s with call := some (.applyMask key), buf := buf }

/-- The caller presents a register-only operation over header registers `h` (R211). -/
def State.presentRegisters (s : State) (c : Call) (h : Header) : State := { s with call := some c, h := h }

/-- How the caller's loop stands (R158). -/
inductive LoopEnd where
  /-- `Incomplete`: these bytes are kept, and more are awaited (R200). -/
  | waiting (rest : Bytes)
  /-- Another error: it is surfaced and the loop stops (60_exceptions.md R180). -/
  | stopped (k : ErrorKind) (rest : Bytes)
  /-- The given number of passes is used up. -/
  | running (rest : Bytes)
deriving DecidableEq, Repr

/-- The caller's loop over a buffer (R158), at most `fuel` passes: the frames delivered, and how it stands. After `OK` it
advances by exactly `consumed` (R201). -/
def decodeLoop (p : Params) (m : Mode) : Nat → Bytes → List (Header × Bytes) × LoopEnd
  | 0, rest => ([], .running rest)
  | fuel + 1, rest =>
    match decodeFrame p m rest with
    | .ok d =>
      ((d.header, d.payload) :: (decodeLoop p m fuel (rest.drop d.consumed)).1,
        (decodeLoop p m fuel (rest.drop d.consumed)).2)
    | .error .incomplete => ([], .waiting rest)
    | .error e => ([], .stopped e rest)

end Sys2Proof.Machine
end

