-- ==== Sys2Proof/Machine/Serial.lean ====
section
/-! DEFINITION. The byte-serial view of DECODE (spec 44_decoder.md R157): "It is the same function". The stage lives inside
one operation (10_state.md R24) and is no part of State. -/

namespace Sys2Proof.Machine

/-- The stages of R157. -/
inductive Stage where
  | fixedHeader | length | key | payload | done
deriving DecidableEq, Repr

/-- What the serial decoder holds between two stages: the header registers as far as they have been written. -/
structure Serial where
  stage : Stage
  pos : Nat
  sel : Sel
  header : Header
  payload : Bytes
deriving DecidableEq, Repr

/-- At the start of DECODE: stage S0, `pos` 0 (10_state.md R18); the registers hold whatever they held before. -/
def Serial.start (h : Header) (sel : Sel) : Serial where
  stage := .fixedHeader
  pos := 0
  sel := sel
  header := h
  payload := []

/-- Unmasking byte by byte as bytes arrive, with the 2-bit phase counter (R157, 10_state.md R24). -/
def maskSerial (key : Key) : BitVec 2 → Bytes → Bytes
  | _, [] => []
  | ph, b :: bs => (b ^^^ keyByte key ph.toNat) :: maskSerial key (ph + 1) bs

/-- The work of one stage (the rows of R157's table). -/
def Serial.advance (p : Params) (m : Mode) (inp : Bytes) (x : Serial) : Except ErrorKind Serial :=
  match x.stage with
  | .fixedHeader =>
    match fetch inp x.pos 2 with
    | .ok ([b0, b1], pos) =>
      match modeFault p m (maskField b1) with
      | some e => .error e
      | none =>
        .ok { x with stage := .length, pos := pos, sel := selField b1, header := ctlUnpack x.header b0 b1 }
    | _ => .error .incomplete
  | .length =>
    match fetchLenField inp x.pos x.sel with
    | .error e => .error e
    | .ok (f, pos) =>
      match lenDec p f with
      | .error e => .error e
      | .ok n =>
        match controlFault p x.header.opcode x.header.fin n with
        | some e => .error e
        | none =>
          if x.header.masked then
            .ok { x with stage := .key, pos := pos, header := { x.header with payloadLength := n } }
          else
            .ok { x with stage := .payload, pos := pos,
                         header := { x.header with payloadLength := n, maskKey := none } }
  | .key =>
    match fetchKey inp x.pos with
    | .error e => .error e
    | .ok (k, pos) => .ok { x with stage := .payload, pos := pos, header := { x.header with maskKey := some k } }
  | .payload =>
    match fetch inp x.pos x.header.payloadLength.toNat with
    | .error e => .error e
    | .ok (raw, pos) =>
      match x.header.maskKey with
      | some k => .ok { x with stage := .done, pos := pos, payload := maskSerial k 0 raw }
      | none => .ok { x with stage := .done, pos := pos, payload := raw }
  | .done => .ok x

/-- Stage after stage, at most `n` of them. -/
def Serial.run (p : Params) (m : Mode) (inp : Bytes) : Nat → Serial → Except ErrorKind Serial
  | 0, x => .ok x
  | n + 1, x =>
    match x.advance p m inp with
    | .error e => .error e
    | .ok x' => Serial.run p m inp n x'

/-- The serial decoder: the four stages from leftover registers `h` and `sel`; nothing is delivered before the last. -/
def decodeSerial (p : Params) (m : Mode) (inp : Bytes) (h : Header) (sel : Sel) : Except ErrorKind Decoded :=
  match Serial.run p m inp 4 (.start h sel) with
  | .error e => .error e
  | .ok x => .ok { header := x.header, payload := x.payload, consumed := x.pos }

end Sys2Proof.Machine
end

