-- ==== Sys2Proof/Safety.lean ====
section
/-! DEFINITION. What the claims speak of: a valid header, the fields of a frame as offsets of its bytes, the state a
completed row leaves, and the invariant every step keeps. -/

namespace Sys2Proof.Machine

/-- A valid header (10_state.md R16): R14 and R15; R13 holds of every `Header` by construction. -/
def Header.valid (h : Header) : Bool :=
  decide (h.payloadLength.toNat < 2 ^ 63) &&
    (!isControlCode h.opcode || (decide (h.payloadLength.toNat ≤ 125) && h.fin))

/-- The mode whose required MASK bit is `masked` (10_state.md R20). -/
def modeOf (masked : Bool) : Mode := if masked then .expectMasked else .expectUnmasked

/-- The number in the byte at an offset; used only below the buffer's length. -/
def byteNat (b : Bytes) (a : Nat) : Nat := ((readByte b a).getD 0).toNat

/-- The extended payload length of a frame as its bytes at offsets 2 on give it (30_encoding.md R55, R56, R57). -/
def declaredLength (sel : Sel) (inp : Bytes) : Nat :=
  if sel.toNat ≤ 125 then sel.toNat
  else if sel.toNat = 126 then 256 * byteNat inp 2 + byteNat inp 3
  else
    2 ^ 56 * byteNat inp 2 + 2 ^ 48 * byteNat inp 3 + 2 ^ 40 * byteNat inp 4 + 2 ^ 32 * byteNat inp 5
      + 2 ^ 24 * byteNat inp 6 + 2 ^ 16 * byteNat inp 7 + 2 ^ 8 * byteNat inp 8 + byteNat inp 9

/-- The key field of a frame at an offset, little-endian (30_encoding.md R58). -/
def wireKey (inp : Bytes) (at_ : Nat) : Key :=
  BitVec.ofNat 32 (byteNat inp at_ + 256 * byteNat inp (at_ + 1) + 65536 * byteNat inp (at_ + 2)
    + 16777216 * byteNat inp (at_ + 3))

/-- The key of a frame: absent when MASK = 0 (30_encoding.md R51, 10_state.md R13). -/
def frameKey (masked : Bool) (sel : Sel) (inp : Bytes) : Option Key :=
  if masked then some (wireKey inp (2 + extSize sel)) else none

/-- Byte `i` of an unmasked payload field: the wire byte, XORed with the key byte of bits `8(i mod 4)+7` to
`8(i mod 4)` (30_encoding.md R59). -/
def plainPayload (key : Option Key) (raw : Bytes) : Bytes :=
  match key with
  | none => raw
  | some k => raw.mapIdx fun i b => b ^^^ (k >>> (8 * (i % 4))).setWidth 8

/-- The state in which a DECODE of a complete frame leaves the machine (44_decoder.md R146): header `h`, a header of `size`
bytes, and the payload behind it. The key phase is the model's (log 14). -/
def State.received (s : State) (h : Header) (size : Nat) : State :=
  let raw := (s.wireIn.drop size).take h.payloadLength.toNat
  { s with
    h := h
    pos := size + h.payloadLength.toNat
    consumed := size + h.payloadLength.toNat
    payOut := plainPayload h.maskKey raw
    keyPhase := if h.masked then BitVec.ofNat 2 h.payloadLength.toNat else s.keyPhase
    result := some .ok
    call := none }

/-- The state an error leaves: the result is the kind, no operation is in progress, all else as before
(60_exceptions.md R176). -/
def State.failed (s : State) (k : ErrorKind) : State := { s with result := some (.err k), call := none }

/-- The state of an operation that returned `OK` and has written what `s` holds. -/
def State.succeeded (s : State) : State := { s with result := some .ok, call := none }

/-- The header of a frame whose fixed bytes are a BYTE0 row: every field as the wire has it (44_decoder.md R146). -/
def byte0Header (code : Nat) (c : Ctl) (inp : Bytes) : Header where
  fin := c.fin
  rsv1 := c.rsv1
  rsv2 := c.rsv2
  rsv3 := c.rsv3
  opcode := BitVec.ofNat 4 code
  maskKey := frameKey c.masked c.sel inp
  payloadLength := BitVec.ofNat 64 (declaredLength c.sel inp)

/-- The header of a frame whose whole header is a HEADER row. -/
def rowHeader (b : Byte0) (n : Nat) (key : Option Key) : Header where
  fin := b.fin
  rsv1 := b.rsv1
  rsv2 := b.rsv2
  rsv3 := b.rsv3
  opcode := b.opcode
  maskKey := key
  payloadLength := BitVec.ofNat 64 n

/-- The control-frame limits on an opcode, a FIN bit and a length (10_state.md R15). -/
def controlLimitsMet (opcode : BitVec 4) (fin : Bool) (n : Nat) : Bool :=
  !isControlCode opcode || (decide (n ≤ 125) && fin)

/-- The HEADER row of a header: the format chosen by LEN_CLASS and `masked` (43_encoder.md R131, 30_encoding.md R51). -/
def formatRow (h : Header) : Instr :=
  let b : Byte0 :=
    { fin := h.fin, rsv1 := h.rsv1, rsv2 := h.rsv2, rsv3 := h.rsv3, opcode := h.opcode }
  match lenClassOf h.payloadLength, h.maskKey with
  | .inline, none => .f7u b (h.payloadLength.setWidth 7)
  | .inline, some key => .f7m b (h.payloadLength.setWidth 7) key
  | .ext16, none => .f16u b (h.payloadLength.setWidth 16)
  | .ext16, some key => .f16m b (h.payloadLength.setWidth 16) key
  | .ext64, none => .f64u b (h.payloadLength.setWidth 63)
  | .ext64, some key => .f64m b (h.payloadLength.setWidth 63) key

/-- `IN` holds the whole of a frame whose fixed bytes are a BYTE0 row, with a legal length (30_encoding.md R51, R57). -/
def wholeFrame (c : Ctl) (inp : Bytes) : Bool :=
  decide (headerSize c.masked c.sel + declaredLength c.sel inp ≤ inp.length) &&
    decide (declaredLength c.sel inp < 2 ^ 63)

/-- The bytes of a header as numbers (30_encoding.md R52, R53). -/
def fixedBytes (h : Header) (sel : Nat) : Bytes :=
  [BitVec.ofNat 8 (128 * h.fin.toNat + 64 * h.rsv1.toNat + 32 * h.rsv2.toNat + 16 * h.rsv3.toNat + h.opcode.toNat),
   BitVec.ofNat 8 (128 * h.masked.toNat + sel)]

/-- The selector and extended length bytes the encoder writes for a length (41_length_coder.md R111, R114). -/
def lengthBytes (n : Nat) : Nat × Bytes :=
  if n ≤ 125 then (n, [])
  else if n ≤ 65535 then (126, [BitVec.ofNat 8 (n / 256), BitVec.ofNat 8 n])
  else
    (127, [BitVec.ofNat 8 (n / 2 ^ 56), BitVec.ofNat 8 (n / 2 ^ 48), BitVec.ofNat 8 (n / 2 ^ 40),
           BitVec.ofNat 8 (n / 2 ^ 32), BitVec.ofNat 8 (n / 2 ^ 24), BitVec.ofNat 8 (n / 2 ^ 16),
           BitVec.ofNat 8 (n / 2 ^ 8), BitVec.ofNat 8 n])

/-- The "raised by" column of 60_exceptions.md R171: which operations may return a kind. -/
def raisedBy (k : ErrorKind) (c : Call) : Bool :=
  match k, c with
  | .invalidOpcode, .opcFromRaw _ => true
  | .invalidLength, .hdrNew _ | .invalidLength, .encode | .invalidLength, .encodeMsg _ _ _
  | .invalidLength, .lenDec _ | .invalidLength, .decode => true
  | .lengthMismatch, .encode => true
  | .incomplete, .decode => true
  | .protocolError, .hdrNew _ | .protocolError, .encode | .protocolError, .encodeMsg _ _ _
  | .protocolError, .decode => true
  | _, _ => false

/-- The wire bytes of a frame (30_encoding.md R50, R58, R59). -/
def frameBytes (h : Header) (pay : Bytes) : Bytes :=
  fixedBytes h (lengthBytes h.payloadLength.toNat).1 ++ (lengthBytes h.payloadLength.toNat).2 ++
    (match h.maskKey with
     | none => []
     | some k => [k.setWidth 8, (k >>> 8).setWidth 8, (k >>> 16).setWidth 8, (k >>> 24).setWidth 8]) ++
    plainPayload h.maskKey pay

/-- Two states hold the same operands of an operation: the header registers, buffers and mode that its "Operands" line names
(40_header_model.md to 44_decoder.md). Operands that stand in the call itself are not repeated. -/
def Call.sameOperands (s s' : State) : Call → Prop
  | .isControl | .opcDemux => s.h.opcode = s'.h.opcode
  | .ctlPack _ =>
    s.h.fin = s'.h.fin ∧ s.h.rsv1 = s'.h.rsv1 ∧ s.h.rsv2 = s'.h.rsv2 ∧ s.h.rsv3 = s'.h.rsv3 ∧
      s.h.opcode = s'.h.opcode ∧ s.h.masked = s'.h.masked
  | .lenClass | .lenEnc => s.h.payloadLength = s'.h.payloadLength
  | .keyBytes => s.h.maskKey = s'.h.maskKey
  | .applyMask _ | .applyMaskWide _ => s.buf = s'.buf
  | .encode => s.h = s'.h ∧ s.pay = s'.pay
  | .encodeMsg _ _ _ => s.pay = s'.pay
  | .decode => s.wireIn = s'.wireIn ∧ s.dMode = s'.dMode
  | .opcFromRaw _ | .opcToRaw _ | .ctlUnpack _ _ | .hdrNew _ | .lenDec _ | .keyFromBytes _ _ _ _ => True

/-- Two states hold the same outputs of an operation: what its "out" operands name. -/
def Call.sameOutputs (t t' : State) : Call → Prop
  | .opcFromRaw _ => t.h.opcode = t'.h.opcode
  | .opcToRaw _ => t.ports.rawCode = t'.ports.rawCode
  | .isControl => t.ports.control = t'.ports.control
  | .opcDemux => t.ports.variant = t'.ports.variant ∧ t.ports.cls = t'.ports.cls
  | .ctlPack _ => t.ports.byte0 = t'.ports.byte0 ∧ t.ports.byte1 = t'.ports.byte1
  | .ctlUnpack _ _ =>
    t.h.fin = t'.h.fin ∧ t.h.rsv1 = t'.h.rsv1 ∧ t.h.rsv2 = t'.h.rsv2 ∧ t.h.rsv3 = t'.h.rsv3 ∧
      t.h.opcode = t'.h.opcode ∧ t.h.masked = t'.h.masked ∧ t.ports.sel = t'.ports.sel
  | .hdrNew _ => t.h = t'.h
  | .lenClass => t.ports.lenClass = t'.ports.lenClass
  | .lenEnc => t.ports.sel = t'.ports.sel ∧ t.ports.ext = t'.ports.ext
  | .lenDec _ => t.h.payloadLength = t'.h.payloadLength
  | .keyBytes => t.ports.keyBytes = t'.ports.keyBytes
  | .keyFromBytes _ _ _ _ => t.h.maskKey = t'.h.maskKey
  | .applyMask _ | .applyMaskWide _ => t.buf = t'.buf
  | .encode | .encodeMsg _ _ _ => t.wireOut = t'.wireOut
  | .decode => t.h = t'.h ∧ t.pos = t'.pos ∧ t.consumed = t'.consumed ∧ t.payOut = t'.payOut

/-- The invariant every step keeps:
the cursor is the count of bytes consumed (10_state.md R18);
the last delivered payload and count fit one of the six header sizes and the length limit (44_decoder.md R154);
and `OUT`, when not empty, is exactly one whole frame that its own decoder accepts (43_encoder.md R131, 44_decoder.md R155). -/
def State.Inv (s : State) : Prop :=
  s.pos = s.consumed ∧
  (s.consumed = 0 ∧ s.payOut = [] ∨
    ∃ masked sel, s.consumed = headerSize masked sel + s.payOut.length ∧ s.payOut.length < 2 ^ 63) ∧
  (s.wireOut = [] ∨
    ∃ m d, decodeFrame buildParams m s.wireOut = .ok d ∧ d.consumed = s.wireOut.length)

end Sys2Proof.Machine
end

