-- ==== Sys2Proof/Certificates/Slice0/Obligations.lean ====
section
/-! DEFINITION. The statements for the provers. `OBLIGATIONS.json` gives each its title, its rules and its tier. -/

open Sys2Proof Sys2Proof.Machine

/-! ### Rows and their bytes -/

/-- A few words, written out bit by bit from 30_encoding.md R52, R53, R56 to R58, decode to the rows they stand for. -/
def Obligations.WordsDecodeToTheirRows : Prop :=
  decodeRow .byte0 [0b10000001#8, 0b10000011#8] = .ok (.text ⟨true, false, false, false, true, 3⟩) ∧
  decodeRow .byte0 [0b00001001#8, 0b01111110#8] = .ok (.ping ⟨false, false, false, false, false, 126⟩) ∧
  decodeRow .byte0 [0b01011011#8, 0b00000000#8] = .ok (.reserved11 ⟨false, true, false, true, false, 0⟩) ∧
  decodeRow .header [0x52#8, 0x01#8] = .ok (.f7u ⟨false, true, false, true, 2⟩ 1) ∧
  decodeRow .header [0x81#8, 0x83#8, 0x61#8, 0x32#8, 0x34#8, 0x63#8]
    = .ok (.f7m ⟨true, false, false, false, 1⟩ 3 0x63343261#32) ∧
  decodeRow .header [0x8B#8, 0x7E#8, 0x00#8, 0xC8#8] = .ok (.f16u ⟨true, false, false, false, 11⟩ 200) ∧
  decodeRow .header [0x82#8, 0x7F#8, 0#8, 0#8, 0#8, 0#8, 0#8, 1#8, 0#8, 0#8]
    = .ok (.f64u ⟨true, false, false, false, 2⟩ 65536)

/-- DECODE AND ENCODE AGREE: every well-formed row, with every value of its operands and whatever bytes follow, is what
the decoder of its kind reads from its encoding. -/
def Obligations.EveryRowDecodesFromItsEncoding : Prop :=
  ∀ (i : Instr) (rest : Bytes), i.wf = true → decodeRow i.kind (encode i ++ rest) = .ok i

/-- The other direction: bytes that give a row begin with that row's encoding, so no bit of a header is dropped. -/
def Obligations.DecodedRowSpellsItsBytes : Prop :=
  ∀ (k : RowKind) (bs : Bytes) (i : Instr), decodeRow k bs = .ok i →
    i.kind = k ∧ i.wf = true ∧ ∃ rest, bs = encode i ++ rest

/-- OPC_TO_RAW and OPC_DEMUX are inverse bijections between the 16 variants and the 16 codes, and OPC_TO_RAW writes no
register. The numbers of the five named codes but Text are the spec's from general knowledge (log 5). -/
def Obligations.OpcodeViewIsABijection : Prop :=
  (∀ (s t u : State) (v : Opcode), s.call = some (.opcToRaw v) → step s = .next t →
    step { t with h := { t.h with opcode := t.ports.rawCode }, call := some .opcDemux } = .next u →
    t.ports.rawCode = v.code ∧ t.h = s.h ∧ u.ports.variant = v) ∧
  (∀ c : BitVec 4, (Opcode.ofCode c).code = c) ∧
  [Opcode.continuation, .text, .binary, .close, .ping, .pong].map (fun v => v.code.toNat) = [0, 1, 2, 8, 9, 10]

/-- Which bytes are a HEADER row: a whole header whose reserved top bit is 0; and when each rejection is given. -/
def Obligations.HeaderRowIsAWholeLegalHeader : Prop :=
  ∀ (b0 b1 : Byte) (rest : Bytes),
    ((∃ i, decodeHeaderRow (b0 :: b1 :: rest) = .ok i) ↔
      headerSize (maskField b1) (selField b1) ≤ rest.length + 2 ∧
        ¬ (selField b1 = 127 ∧ 128 ≤ byteNat rest 0)) ∧
    (decodeHeaderRow (b0 :: b1 :: rest) = .error .reservedTopBit ↔
      selField b1 = 127 ∧ 8 ≤ rest.length ∧ 128 ≤ byteNat rest 0)

/-! ### One step -/

/-- A STEP RUNS THE DECODED INSTRUCTION: with DECODE presented, the step is `exec` of the row the frame in `IN` gives, and
nothing is added around it. -/
def Obligations.StepRunsTheDecodedRow : Prop :=
  ∀ (s : State) (i : Instr), s.call = some .decode → decodeInstr s.wireIn = .ok i → step s = exec i s

/-- Both rows a frame matches mean the same DECODE (30_encoding.md R71): whichever kind is decoded, the step is its `exec`.
That the machine names a frame by one of its two rows is the model's choice (log 2), and this says it is unobservable. -/
def Obligations.StepIsExecOfEitherRow : Prop :=
  ∀ (s : State) (k : RowKind) (i : Instr), s.call = some .decode → decodeRow k s.wireIn = .ok i → step s = exec i s

/-- A DECODE step delivers what the function of `IN` and the mode alone gives, or takes its error. -/
def Obligations.StepDecodeIsDecodeFrame : Prop :=
  ∀ s : State, s.call = some .decode →
    step s = .next (match decodeFrame buildParams s.dMode s.wireIn with
      | .ok d => { s with
          h := d.header, pos := d.consumed, consumed := d.consumed, payOut := d.payload,
          keyPhase := if d.header.masked then BitVec.ofNat 2 d.payload.length else s.keyPhase,
          result := some .ok, call := none }
      | .error e => s.failed e)

/-- No input makes the machine stop: every step answers a next state, in which no operation is in progress, and an
operation that was presented has a result. -/
def Obligations.EveryStepCompletes : Prop :=
  ∀ s : State, ∃ t, step s = .next t ∧ t.call = none ∧ (s.call ≠ none → t.result ≠ none)

/-- Between operations nothing happens. -/
def Obligations.IdleStepChangesNothing : Prop :=
  ∀ s : State, s.call = none → step s = .next s

/-! ### The rows complete -/

/-- Rows Continuation, Text and Binary complete on every whole frame in the mode its MASK bit meets, with the header,
payload and count the frame gives: FIN and length any. The key phase they leave is the model's choice (log 14). -/
def Obligations.DataRowsComplete : Prop :=
  ∀ (c : Ctl) (s : State), s.dMode = modeOf c.masked → wholeFrame c s.wireIn = true →
    exec (.continuation c) s = .next (s.received (byte0Header 0 c s.wireIn) (headerSize c.masked c.sel)) ∧
    exec (.text c) s = .next (s.received (byte0Header 1 c s.wireIn) (headerSize c.masked c.sel)) ∧
    exec (.binary c) s = .next (s.received (byte0Header 2 c s.wireIn) (headerSize c.masked c.sel))

/-- The ten Reserved rows complete the same way: carried unchanged, no check of their own. -/
def Obligations.ReservedRowsComplete : Prop :=
  ∀ (c : Ctl) (s : State), s.dMode = modeOf c.masked → wholeFrame c s.wireIn = true →
    exec (.reserved3 c) s = .next (s.received (byte0Header 3 c s.wireIn) (headerSize c.masked c.sel)) ∧
    exec (.reserved4 c) s = .next (s.received (byte0Header 4 c s.wireIn) (headerSize c.masked c.sel)) ∧
    exec (.reserved5 c) s = .next (s.received (byte0Header 5 c s.wireIn) (headerSize c.masked c.sel)) ∧
    exec (.reserved6 c) s = .next (s.received (byte0Header 6 c s.wireIn) (headerSize c.masked c.sel)) ∧
    exec (.reserved7 c) s = .next (s.received (byte0Header 7 c s.wireIn) (headerSize c.masked c.sel)) ∧
    exec (.reserved11 c) s = .next (s.received (byte0Header 11 c s.wireIn) (headerSize c.masked c.sel)) ∧
    exec (.reserved12 c) s = .next (s.received (byte0Header 12 c s.wireIn) (headerSize c.masked c.sel)) ∧
    exec (.reserved13 c) s = .next (s.received (byte0Header 13 c s.wireIn) (headerSize c.masked c.sel)) ∧
    exec (.reserved14 c) s = .next (s.received (byte0Header 14 c s.wireIn) (headerSize c.masked c.sel)) ∧
    exec (.reserved15 c) s = .next (s.received (byte0Header 15 c s.wireIn) (headerSize c.masked c.sel))

/-- Rows Close, Ping and Pong complete on every whole frame with FIN set and at most 125 payload bytes. -/
def Obligations.ControlRowsComplete : Prop :=
  ∀ (c : Ctl) (s : State), s.dMode = modeOf c.masked → wholeFrame c s.wireIn = true →
    c.fin = true → declaredLength c.sel s.wireIn ≤ 125 →
    exec (.close c) s = .next (s.received (byte0Header 8 c s.wireIn) (headerSize c.masked c.sel)) ∧
    exec (.ping c) s = .next (s.received (byte0Header 9 c s.wireIn) (headerSize c.masked c.sel)) ∧
    exec (.pong c) s = .next (s.received (byte0Header 10 c s.wireIn) (headerSize c.masked c.sel))

/-- Rows F7U, F16U and F64U complete when the payload behind the header is there and the control-frame limits are met. -/
def Obligations.UnmaskedFormatRowsComplete : Prop :=
  ∀ (b : Byte0) (s : State), s.dMode = .expectUnmasked →
    (∀ len : BitVec 7, controlLimitsMet b.opcode b.fin len.toNat = true → 2 + len.toNat ≤ s.wireIn.length →
      exec (.f7u b len) s = .next (s.received (rowHeader b len.toNat none) 2)) ∧
    (∀ len : BitVec 16, controlLimitsMet b.opcode b.fin len.toNat = true → 4 + len.toNat ≤ s.wireIn.length →
      exec (.f16u b len) s = .next (s.received (rowHeader b len.toNat none) 4)) ∧
    (∀ len : BitVec 63, controlLimitsMet b.opcode b.fin len.toNat = true → 10 + len.toNat ≤ s.wireIn.length →
      exec (.f64u b len) s = .next (s.received (rowHeader b len.toNat none) 10))

/-- Rows F7M, F16M and F64M complete likewise, with the payload unmasked by the row's key. -/
def Obligations.MaskedFormatRowsComplete : Prop :=
  ∀ (b : Byte0) (key : Key) (s : State), s.dMode = .expectMasked →
    (∀ len : BitVec 7, controlLimitsMet b.opcode b.fin len.toNat = true → 6 + len.toNat ≤ s.wireIn.length →
      exec (.f7m b len key) s = .next (s.received (rowHeader b len.toNat (some key)) 6)) ∧
    (∀ len : BitVec 16, controlLimitsMet b.opcode b.fin len.toNat = true → 8 + len.toNat ≤ s.wireIn.length →
      exec (.f16m b len key) s = .next (s.received (rowHeader b len.toNat (some key)) 8)) ∧
    (∀ len : BitVec 63, controlLimitsMet b.opcode b.fin len.toNat = true → 14 + len.toNat ≤ s.wireIn.length →
      exec (.f64m b len key) s = .next (s.received (rowHeader b len.toNat (some key)) 14))

/-- What any row leaves unchanged: every byte of `IN`, `PAY`, `BUF` and `OUT`, the ports and the mode;
on an error every register and `POUT` too; and the key phase when the delivered frame is unmasked. -/
def Obligations.RowsLeaveTheRestUnchanged : Prop :=
  ∀ (i : Instr) (s t : State), exec i s = .next t →
    (∀ a, readByte t.wireIn a = readByte s.wireIn a ∧ readByte t.pay a = readByte s.pay a ∧
      readByte t.buf a = readByte s.buf a ∧ readByte t.wireOut a = readByte s.wireOut a) ∧
    t.ports = s.ports ∧ t.dMode = s.dMode ∧
    (t.result = some .ok ∧ (t.h.masked = false → t.keyPhase = s.keyPhase) ∨
      ∃ k, t.result = some (.err k) ∧ t.h = s.h ∧ t.pos = s.pos ∧ t.consumed = s.consumed ∧
        t.keyPhase = s.keyPhase ∧ ∀ a, readByte t.payOut a = readByte s.payOut a)

/-! ### Errors of the decoder -/

/-- All a BYTE0 row can do, check by check in stream order: the DECODE line of 60_exceptions.md R174. -/
def Obligations.ByteRowChecksInStreamOrder : Prop :=
  ∀ (o : Opcode) (c : Ctl) (s : State),
    exec (.ofOpcode o c) s = .next (
      if s.dMode ≠ modeOf c.masked then s.failed .protocolError
      else if s.wireIn.length < 2 + extSize c.sel then s.failed .incomplete
      else if 2 ^ 63 ≤ declaredLength c.sel s.wireIn then s.failed .invalidLength
      else if o = .close ∨ o = .ping ∨ o = .pong then
        if 125 < declaredLength c.sel s.wireIn then s.failed .invalidLength
        else if c.fin = false then s.failed .protocolError
        else if s.wireIn.length < headerSize c.masked c.sel + declaredLength c.sel s.wireIn then s.failed .incomplete
        else s.received (byte0Header o.code.toNat c s.wireIn) (headerSize c.masked c.sel)
      else if s.wireIn.length < headerSize c.masked c.sel + declaredLength c.sel s.wireIn then s.failed .incomplete
      else s.received (byte0Header o.code.toNat c s.wireIn) (headerSize c.masked c.sel))

/-- The mode check comes first, in every row, and is made as soon as two bytes are there, however long the frame claims to be
and whatever else is wrong with it. -/
def Obligations.ModeCheckRefusesFirst : Prop :=
  (∀ (i : Instr) (s : State), s.dMode ≠ modeOf i.maskBit → exec i s = .next (s.failed .protocolError)) ∧
  (∀ (s : State) (b0 b1 : Byte) (rest : Bytes), s.call = some .decode → s.wireIn = b0 :: b1 :: rest →
    s.dMode ≠ modeOf (b1.getLsbD 7) → step s = .next (s.failed .protocolError))

/-- A control frame above 125 bytes is refused as soon as its length is known, with the rule's example. -/
def Obligations.LongControlFrameIsInvalidLength : Prop :=
  (∀ (o : Opcode) (c : Ctl) (s : State), (o = .close ∨ o = .ping ∨ o = .pong) → s.dMode = modeOf c.masked →
    2 + extSize c.sel ≤ s.wireIn.length → 125 < declaredLength c.sel s.wireIn →
    exec (.ofOpcode o c) s = .next (s.failed .invalidLength)) ∧
  (∀ s : State, s.call = some .decode → s.dMode = .expectUnmasked →
    s.wireIn = [0x89#8, 0x7E#8, 0x00#8, 0x7E#8] → step s = .next (s.failed .invalidLength))

/-- A control frame with FIN = 0 is refused after the control-length check, with the rule's two examples. The refusal is
the spec's decision D5, its parameter at the default (log 7). -/
def Obligations.FragmentedControlFrameIsProtocolError : Prop :=
  (∀ (o : Opcode) (c : Ctl) (s : State), (o = .close ∨ o = .ping ∨ o = .pong) → s.dMode = modeOf c.masked →
    2 + extSize c.sel ≤ s.wireIn.length → declaredLength c.sel s.wireIn ≤ 125 → c.fin = false →
    exec (.ofOpcode o c) s = .next (s.failed .protocolError)) ∧
  (∀ s : State, s.call = some .decode → s.dMode = .expectUnmasked →
    (s.wireIn = [0x09#8, 0x00#8] → step s = .next (s.failed .protocolError)) ∧
    (s.wireIn = [0x09#8, 0x7E#8, 0x00#8, 0x7E#8] → step s = .next (s.failed .invalidLength)))

/-- The reserved top bit is tested once all eight extended bytes are there, not before. -/
def Obligations.TopBitIsTestedOnWholeLength : Prop :=
  ∀ (s : State) (b0 b1 : Byte) (rest : Bytes), s.call = some .decode → s.wireIn = b0 :: b1 :: rest →
    s.dMode = modeOf (maskField b1) → selField b1 = 127 →
    (rest.length < 8 → step s = .next (s.failed .incomplete)) ∧
    (8 ≤ rest.length → 128 ≤ byteNat rest 0 → step s = .next (s.failed .invalidLength))

/-- Stage S0 needs both fixed header bytes, and splits them as CTL_UNPACK does. -/
def Obligations.FixedHeaderNeedsBothBytes : Prop :=
  ∀ s : State, s.call = some .decode →
    (s.wireIn.length < 2 → step s = .next (s.failed .incomplete)) ∧
    (∀ (b0 b1 : Byte) (rest : Bytes), s.wireIn = b0 :: b1 :: rest →
      step s = exec (.ofOpcode (.ofCode (ctlUnpack s.h b0 b1).opcode)
        ⟨(ctlUnpack s.h b0 b1).fin, (ctlUnpack s.h b0 b1).rsv1, (ctlUnpack s.h b0 b1).rsv2,
         (ctlUnpack s.h b0 b1).rsv3, (ctlUnpack s.h b0 b1).masked, selField b1⟩) s)

/-- The complete list of frame encodings the decoder refuses; every other byte sequence decodes or is `Incomplete`. -/
def Obligations.RefusedFramesAreTheListedOnes : Prop :=
  ∀ (m : Mode) (inp : Bytes) (k : ErrorKind), decodeFrame buildParams m inp = .error k → k ≠ .incomplete →
    ∃ b0 b1 rest, inp = b0 :: b1 :: rest ∧
      (selField b1 = 127 ∧ 128 ≤ byteNat rest 0 ∧ k = .invalidLength ∨
        (opcodeField b0 = 8 ∨ opcodeField b0 = 9 ∨ opcodeField b0 = 10) ∧ 125 < (selField b1).toNat ∧
          125 < declaredLength (selField b1) inp ∧ k = .invalidLength ∨
        (opcodeField b0 = 8 ∨ opcodeField b0 = 9 ∨ opcodeField b0 = 10) ∧ b0.getLsbD 7 = false ∧
          k = .protocolError ∨
        b1.getLsbD 7 = false ∧ m = .expectMasked ∧ k = .protocolError ∨
        b1.getLsbD 7 = true ∧ m = .expectUnmasked ∧ k = .protocolError)

/-- RSV1 to RSV3 are carried, never tested: with any of the eight combinations a row and ENCODE end the same way, and a
delivered header has the bits as the frame had them; and for every opcode and combination some frame encodes and decodes
with `OK` and gives the bits back. -/
def Obligations.RsvBitsAreCarriedNotTested : Prop :=
  (∀ (o : Opcode) (c : Ctl) (r1 r2 r3 : Bool) (s : State), ∃ t u,
    exec (.ofOpcode o c) s = .next t ∧
    exec (.ofOpcode o { c with rsv1 := r1, rsv2 := r2, rsv3 := r3 }) s = .next u ∧
    u.result = t.result ∧
    (t.result = some .ok → u = { t with h := { t.h with rsv1 := r1, rsv2 := r2, rsv3 := r3 } })) ∧
  (∀ (s t : State) (r1 r2 r3 : Bool), s.call = some .encode → step s = .next t → t.result = some .ok →
    ∃ u rest b0 b0', step { s with h := { s.h with rsv1 := r1, rsv2 := r2, rsv3 := r3 } } = .next u ∧
      u.result = some .ok ∧ t.wireOut = b0 :: rest ∧ u.wireOut = b0' :: rest ∧
      unpackByte0 b0' = { unpackByte0 b0 with rsv1 := r1, rsv2 := r2, rsv3 := r3 }) ∧
  (∀ (s : State) (opcode : BitVec 4) (r1 r2 r3 : Bool),
    ∃ t u, step (s.presentEncode ⟨true, r1, r2, r3, opcode, none, 0⟩ []) = .next t ∧ t.result = some .ok ∧
      step (s.presentDecode .expectUnmasked t.wireOut) = .next u ∧ u.result = some .ok ∧
      u.h = ⟨true, r1, r2, r3, opcode, none, 0⟩)

/-! ### The decoder over buffers -/

/-- Round trip: what ENCODE put out, DECODE in the mode equal to `masked` gives back, every header field and payload byte;
in the other mode it is `ProtocolError`. -/
def Obligations.DecodeOfEncodeGivesFrameBack : Prop :=
  ∀ s t u : State, s.call = some .encode → step s = .next t → t.result = some .ok →
    u.call = some .decode → u.wireIn = t.wireOut →
    (u.dMode = modeOf s.h.masked → ∃ v, step u = .next v ∧ v.result = some .ok ∧ v.h = s.h ∧
      v.payOut = s.pay ∧ v.consumed = t.wireOut.length) ∧
    (u.dMode ≠ modeOf s.h.masked → step u = .next (u.failed .protocolError))

/-- `consumed` is the size of the frame, and the result does not depend on the bytes from there on. -/
def Obligations.TrailingBytesAreNotRead : Prop :=
  ∀ (m : Mode) (inp : Bytes) (d : Decoded), decodeFrame buildParams m inp = .ok d →
    (∃ b0 b1 rest, inp = b0 :: b1 :: rest ∧
      d.consumed = 2 + extSize (selField b1) + keySize (maskField b1) + d.header.payloadLength.toNat) ∧
    1 < d.consumed ∧ d.consumed ≤ inp.length ∧
    ∀ t, decodeFrame buildParams m (inp.take d.consumed ++ t) = .ok d

/-- Every proper prefix of a frame that decodes is `Incomplete`; of an invalid frame, not every prefix is. -/
def Obligations.TruncatedFrameIsIncomplete : Prop :=
  (∀ (m : Mode) (f : Bytes) (d : Decoded) (j : Nat), decodeFrame buildParams m f = .ok d → d.consumed = f.length →
    j < f.length → decodeFrame buildParams m (f.take j) = .error .incomplete) ∧
  decodeFrame buildParams .expectMasked [0x81#8, 0x03#8, 0x48#8] = .error .protocolError ∧
  decodeFrame buildParams .expectMasked [0x81#8, 0x03#8] = .error .protocolError

/-- The result of DECODE depends on `IN` and the mode alone: nothing of an earlier operation is visible to it, so a retry
on the same bytes ends the same way. -/
def Obligations.DecodeDependsOnItsInputsAlone : Prop :=
  ∀ s s' t t' : State, s.call = some .decode → s'.call = some .decode → s.wireIn = s'.wireIn → s.dMode = s'.dMode →
    step s = .next t → step s' = .next t' →
    t.result = t'.result ∧
    (t.result = some .ok → t.h = t'.h ∧ t.pos = t'.pos ∧ t.consumed = t'.consumed ∧ t.payOut = t'.payOut)

/-- The byte-serial decoder, stage after stage with a phase counter, is the same function, whatever its registers held
before and whatever the build's parameters. -/
def Obligations.SerialDecoderIsTheDecoder : Prop :=
  ∀ (p : Params) (m : Mode) (inp : Bytes) (h : Header) (sel : Sel),
    decodeSerial p m inp h sel = decodeFrame p m inp

/-- The caller's loop over the bytes of any frames that ENCODE put out, one behind the other, delivers each of them, in
order, and then awaits more. -/
def Obligations.CallerLoopRecoversEncodedFrames : Prop :=
  ∀ (masked : Bool) (frames : List (Header × Bytes)) (outs : List Bytes),
    (∀ f ∈ frames, f.1.masked = masked) →
    frames.map (fun f => encodeFrame buildParams f.1 f.2) = outs.map .ok →
    decodeLoop buildParams (modeOf masked) (frames.length + 1) outs.flatten = (frames, .waiting [])

/-! ### The encoder -/

/-- ENCODE of a valid header and a payload of the declared length completes with the frame's bytes and writes nothing else.
The key phase it leaves is the model's choice (log 14). -/
def Obligations.EncodeCompletes : Prop :=
  ∀ s : State, s.call = some .encode → s.h.valid = true → s.pay.length = s.h.payloadLength.toNat →
    step s = .next { s with
      wireOut := frameBytes s.h s.pay
      keyPhase := if s.h.masked then BitVec.ofNat 2 s.pay.length else s.keyPhase
      result := some .ok
      call := none }

/-- The encoder's checks in their order: V1, V2, V3, then `LengthMismatch`. -/
def Obligations.EncodeChecksHeaderFirst : Prop :=
  ∀ s : State, s.call = some .encode →
    (2 ^ 63 ≤ s.h.payloadLength.toNat → step s = .next (s.failed .invalidLength)) ∧
    (s.h.payloadLength.toNat < 2 ^ 63 →
      ((s.h.opcode = 8 ∨ s.h.opcode = 9 ∨ s.h.opcode = 10) → 125 < s.h.payloadLength.toNat →
        step s = .next (s.failed .invalidLength)) ∧
      ((s.h.opcode = 8 ∨ s.h.opcode = 9 ∨ s.h.opcode = 10) → s.h.payloadLength.toNat ≤ 125 → s.h.fin = false →
        step s = .next (s.failed .protocolError)) ∧
      (controlLimitsMet s.h.opcode s.h.fin s.h.payloadLength.toNat = true → s.pay.length ≠ s.h.payloadLength.toNat →
        step s = .next (s.failed .lengthMismatch)))

/-- The size of the encoder's output. -/
def Obligations.EncodedSize : Prop :=
  ∀ s t : State, s.call = some .encode → step s = .next t → t.result = some .ok →
    t.wireOut.length =
      2 + (match lenClassOf s.h.payloadLength with | .inline => 0 | .ext16 => 2 | .ext64 => 8) +
        (if s.h.masked then 4 else 0) + s.h.payloadLength.toNat

/-- Neither ENCODE nor ENCODE_MSG writes a byte of `PAY`, whatever the result (43_encoder.md R134); nor any other buffer, any
register or the mode; and with an error not a byte of `OUT` (60_exceptions.md R176, 92_eei_decisions.md D12). That the
registers, ports and other buffers keep what they held is the model's reading (log 12), and that ENCODE_MSG leaves `H` is
too (43_encoder.md R135, D23; log 20). -/
def Obligations.EncodeLeavesPayloadAndRegisters : Prop :=
  ∀ (s t : State) (opcode : BitVec 4) (fin : Bool) (key : Option Key),
    (s.call = some .encode ∨ s.call = some (.encodeMsg opcode fin key)) → step s = .next t →
    (∀ a, readByte t.pay a = readByte s.pay a ∧ readByte t.wireIn a = readByte s.wireIn a ∧
      readByte t.buf a = readByte s.buf a ∧ readByte t.payOut a = readByte s.payOut a) ∧
    t.h = s.h ∧ t.pos = s.pos ∧ t.consumed = s.consumed ∧ t.ports = s.ports ∧ t.dMode = s.dMode ∧
    (t.result = some .ok ∨ t = s.failed .invalidLength ∨ t = s.failed .protocolError ∨ t = s.failed .lengthMismatch)

/-- ENCODE_MSG is HDR_NEW of its completed header, then ENCODE, two operations of the caller, whatever HDR_NEW is handed for
the key where none is given (`unused`); a payload of 2^63 bytes or
more, which the 64-bit length operand of HDR_NEW need not hold, is `InvalidLength`. -/
def Obligations.EncodeMsgIsHdrNewThenEncode : Prop :=
  ∀ (s : State) (opcode : BitVec 4) (fin : Bool) (key : Option Key) (unused : Key),
    s.call = some (.encodeMsg opcode fin key) →
    (2 ^ 63 ≤ s.pay.length → step s = .next (s.failed .invalidLength)) ∧
    (s.pay.length < 2 ^ 63 →
      ∃ t u, step (s.presentRegisters (.hdrNew ⟨fin, false, false, false, opcode, key.isSome, key.getD unused,
          BitVec.ofNat 64 s.pay.length⟩) s.h) = .next t ∧
        step s = .next u ∧
        ((∃ k, t.result = some (.err k) ∧ u = s.failed k) ∨
          ∃ v, t.result = some .ok ∧ step { t with call := some .encode } = .next v ∧
            u.result = some .ok ∧ v.result = some .ok ∧ u.wireOut = v.wireOut))

/-- What ENCODE puts out begins with the encoding of the HEADER row that LEN_CLASS and `masked` choose; the masked or clear
payload follows. -/
def Obligations.EncoderWritesItsFormatRow : Prop :=
  ∀ (h : Header) (pay out : Bytes), encodeFrame buildParams h pay = .ok out →
    out = encode (formatRow h) ++ plainPayload h.maskKey pay

/-- The encoder never writes a length in a wider form than needed: a decoder that requires the minimal form accepts it. -/
def Obligations.EncoderWritesMinimalForm : Prop :=
  ∀ (h : Header) (pay out : Bytes), encodeFrame buildParams h pay = .ok out →
    ∃ d, decodeFrame { buildParams with requireMinimalLength := true } (modeOf h.masked) out = .ok d ∧
      d.consumed = out.length

/-- On the wire, payload byte `i` is masked with the key byte at wire offset `i mod 4` of the key field. -/
def Obligations.WireByteIsMaskedByWireKeyByte : Prop :=
  ∀ s t : State, s.call = some .encode → s.h.masked = true → step s = .next t → t.result = some .ok →
    ∀ i, i < s.pay.length →
      ∃ w p k, readByte t.wireOut (t.wireOut.length - s.pay.length + i) = some w ∧ readByte s.pay i = some p ∧
        readByte t.wireOut (t.wireOut.length - s.pay.length - 4 + i % 4) = some k ∧ w = p ^^^ k

/-! ### The header model -/

/-- OPC_FROM_RAW: the opcode register takes a code up to 15, nothing else changes; above 15 it is `InvalidOpcode`, which
DECODE never returns. -/
def Obligations.OpcodeFromRawCode : Prop :=
  (∀ (s : State) (n : Nat), s.call = some (.opcFromRaw n) →
    (n ≤ 15 → step s = .next (State.succeeded { s with h := { s.h with opcode := BitVec.ofNat 4 n } })) ∧
    (15 < n → step s = .next (s.failed .invalidOpcode))) ∧
  (∀ s t : State, s.call = some .decode → step s = .next t → t.result ≠ some (.err .invalidOpcode))

/-- IS_CONTROL and OPC_DEMUX on every code: control is exactly 8, 9, 10; the class is control exactly when IS_CONTROL is 1;
and exactly one select line is 1. -/
def Obligations.OpcodeClassesAndSelectLines : Prop :=
  ∀ s t u : State, s.call = some .isControl → step s = .next t → step { s with call := some .opcDemux } = .next u →
    (t.ports.control = true ↔ s.h.opcode = 8 ∨ s.h.opcode = 9 ∨ s.h.opcode = 10) ∧
    u.ports.variant.code = s.h.opcode ∧
    (u.ports.cls = .control ↔ t.ports.control = true) ∧
    (u.ports.cls = .data ↔ s.h.opcode = 0 ∨ s.h.opcode = 1 ∨ s.h.opcode = 2) ∧
    (let l := selectLines u.ports.variant
     [l.isContinuation, l.isText, l.isBinary, l.isClose, l.isPing, l.isPong, l.isReserved].count true = 1)

/-- CTL_PACK of the registers and a selector: the two bytes, bit weights 128 down to 1, and nothing else written. -/
def Obligations.PackControlBits : Prop :=
  ∀ (s : State) (sel : Sel), s.call = some (.ctlPack sel) →
    ∃ b0 b1, step s = .next (State.succeeded { s with ports := { s.ports with byte0 := b0, byte1 := b1 } }) ∧
      [b0, b1] = fixedBytes s.h sel.toNat

/-- CTL_UNPACK of two bytes: six header registers and the selector, each the bits it is given, the length register and the
other ports as before; and it is the inverse of CTL_PACK in both directions. The key follows `masked` (10_state.md R13, D7; log 22):
with MASK = 0 it is then absent, with MASK = 1 a key that was there stays. With MASK = 1 and no key before, it is some
value, and nothing here rests on which (log 13). -/
def Obligations.UnpackControlBits : Prop :=
  (∀ (s : State) (b0 b1 : Byte), s.call = some (.ctlUnpack b0 b1) →
    ∃ t key, step s = .next t ∧ t.result = some .ok ∧
      t.h = { s.h with
        fin := b0.getLsbD 7, rsv1 := b0.getLsbD 6, rsv2 := b0.getLsbD 5, rsv3 := b0.getLsbD 4,
        opcode := BitVec.ofNat 4 (b0.toNat % 16), maskKey := key } ∧
      t.h.masked = b1.getLsbD 7 ∧
      (b1.getLsbD 7 = false → key = none) ∧ (b1.getLsbD 7 = true → s.h.masked = true → key = s.h.maskKey) ∧
      t.ports = { s.ports with sel := BitVec.ofNat 7 (b1.toNat % 128) } ∧
      ∃ u, step { t with call := some (.ctlPack t.ports.sel) } = .next u ∧ u.ports.byte0 = b0 ∧ u.ports.byte1 = b1) ∧
  (∀ (s t u : State) (sel : Sel), s.call = some (.ctlPack sel) → step s = .next t →
    step { t with call := some (.ctlUnpack t.ports.byte0 t.ports.byte1) } = .next u → u.h = s.h ∧ u.ports.sel = sel)

/-- HDR_NEW: the checks V1, V2, V3 in their order; then all eight registers, the key present exactly when `masked` is 1, so
that a key supplied with `masked = 0` is dropped (10_state.md R13, D7). -/
def Obligations.HdrNewValidatesAndWrites : Prop :=
  ∀ (s : State) (arg : HeaderArg), s.call = some (.hdrNew arg) →
    (2 ^ 63 ≤ arg.payloadLength.toNat → step s = .next (s.failed .invalidLength)) ∧
    (arg.payloadLength.toNat < 2 ^ 63 →
      ((arg.opcode = 8 ∨ arg.opcode = 9 ∨ arg.opcode = 10) → 125 < arg.payloadLength.toNat →
        step s = .next (s.failed .invalidLength)) ∧
      ((arg.opcode = 8 ∨ arg.opcode = 9 ∨ arg.opcode = 10) → arg.payloadLength.toNat ≤ 125 → arg.fin = false →
        step s = .next (s.failed .protocolError)) ∧
      (controlLimitsMet arg.opcode arg.fin arg.payloadLength.toNat = true →
        step s = .next (State.succeeded { s with
          h := ⟨arg.fin, arg.rsv1, arg.rsv2, arg.rsv3, arg.opcode, if arg.masked then some arg.maskKey else none,
            arg.payloadLength⟩ })))

/-- No operation returns a kind that the "raised by" column of 60_exceptions.md R171 does not give it. -/
def Obligations.ErrorKindsAndTheirOperations : Prop :=
  ∀ (s t : State) (c : Call) (k : ErrorKind), s.call = some c → step s = .next t → t.result = some (.err k) →
    raisedBy k c = true

/-! ### The length coder -/

/-- LEN_CLASS and LEN_ENC: the narrowest form, and its selector and big-endian bytes as numbers; no register is written. -/
def Obligations.LengthIsEncodedInItsClass : Prop :=
  ∀ s t u : State, s.call = some .lenEnc → step s = .next t → step { s with call := some .lenClass } = .next u →
    (t.ports.sel.toNat, t.ports.ext) = lengthBytes s.h.payloadLength.toNat ∧ t.h = s.h ∧
    (u.ports.lenClass = .inline ↔ s.h.payloadLength.toNat ≤ 125) ∧
    (u.ports.lenClass = .ext64 ↔ 65535 < s.h.payloadLength.toNat) ∧ u.h = s.h

/-- LEN_DEC: the value of the `ExtSize(sel)` bytes goes to the length register; bit 63 set is `InvalidLength`
(41_length_coder.md R112). That non-minimal forms are accepted is the spec's decision D9, its parameter at the default
(log 9). That its operand is every selector with exactly as many bytes as it calls for is the model's reading (log 11). -/
def Obligations.LengthIsDecoded : Prop :=
  (∀ (s : State) (f : LenField), s.call = some (.lenDec f) →
    (declaredLength f.sel (0 :: 0 :: f.ext) < 2 ^ 63 →
      step s = .next (State.succeeded
        { s with h := { s.h with payloadLength := BitVec.ofNat 64 (declaredLength f.sel (0 :: 0 :: f.ext)) } })) ∧
    (2 ^ 63 ≤ declaredLength f.sel (0 :: 0 :: f.ext) → step s = .next (s.failed .invalidLength))) ∧
  (∀ (sel : Sel) (ext : Bytes),
    ext.length = (if sel.toNat ≤ 125 then 0 else if sel.toNat = 126 then 2 else 8) ↔
      ∃ f : LenField, f.sel = sel ∧ f.ext = ext)

/-- Round trip of the length coder: every legal length decodes from its encoding, which has `ExtSize(sel)` bytes; a field
encodes back from its value exactly when it is the minimal form. -/
def Obligations.LengthCoderRoundTrip : Prop :=
  (∀ n : Len, n.toNat < 2 ^ 63 → (lenEnc n).2.length = extSize (lenEnc n).1 ∧
    ∃ f : LenField, f.sel = (lenEnc n).1 ∧ f.ext = (lenEnc n).2 ∧ lenDec buildParams f = .ok n) ∧
  (∀ (f : LenField) (n : Len), lenDec buildParams f = .ok n →
    (lenEnc n = (f.sel, f.ext) ↔ f.form = lenClassOf n))

/-! ### The masking pipeline -/

/-- KEY_FROM_BYTES writes the little-endian value of four bytes to the key register, and KEY_BYTES gives the four bytes
back; KEY_BYTES of a present key gives its bytes, least significant first, and KEY_FROM_BYTES of them gives the key back.
After KEY_FROM_BYTES the key is present, and so `masked` is 1 (10_state.md R13, D7; log 22). -/
def Obligations.KeyBytesAreLittleEndian : Prop :=
  (∀ (s t u : State) (k0 k1 k2 k3 : Byte), s.call = some (.keyFromBytes k0 k1 k2 k3) → step s = .next t →
    step { t with call := some .keyBytes } = .next u →
    t.h = { s.h with maskKey := some (BitVec.ofNat 32
      (k0.toNat + 256 * k1.toNat + 65536 * k2.toNat + 16777216 * k3.toNat)) } ∧
    t.h.masked = true ∧ u.ports.keyBytes = [k0, k1, k2, k3] ∧ u.h = t.h) ∧
  (∀ (s t : State) (key : Key), s.call = some .keyBytes → s.h.maskKey = some key → step s = .next t →
    t = State.succeeded { s with ports := { s.ports with
      keyBytes := [key.setWidth 8, (key >>> 8).setWidth 8, (key >>> 16).setWidth 8, (key >>> 24).setWidth 8] } } ∧
    ∃ u, step { t with call := some (.keyFromBytes (key.setWidth 8) ((key >>> 8).setWidth 8) ((key >>> 16).setWidth 8)
        ((key >>> 24).setWidth 8)) } = .next u ∧ u.h.maskKey = some key)

/-- APPLY_MASK: byte `i` of `BUF` is XORed with key byte `i mod 4`, the length stays, and nothing but `BUF` (and the key
phase, the model's choice, log 14) changes. -/
def Obligations.ApplyMaskXorsEveryByte : Prop :=
  ∀ (s : State) (key : Key), s.call = some (.applyMask key) →
    ∃ b ph, step s = .next (State.succeeded { s with buf := b, keyPhase := ph }) ∧ b.length = s.buf.length ∧
      ∀ i, readByte b i = (readByte s.buf i).map fun x => x ^^^ (key >>> (8 * (i % 4))).setWidth 8

/-- Masking is an involution: applying it twice with the same key restores the buffer. And unmasking in DECODE is that same
operation: `POUT` is what APPLY_MASK makes of a copy of the wire payload, with the key that the four bytes before it give,
least significant first; or, with MASK = 0, the wire payload as it stands. `IN` is as before. -/
def Obligations.MaskingTwiceRestoresBuffer : Prop :=
  (∀ (s t u : State) (key : Key), s.call = some (.applyMask key) → step s = .next t →
    step { t with call := some (.applyMask key) } = .next u → u.buf = s.buf) ∧
  (∀ s t : State, s.call = some .decode → step s = .next t → t.result = some .ok →
    t.wireIn = s.wireIn ∧
    (t.h.masked = false →
      t.payOut = (s.wireIn.take t.consumed).drop (t.consumed - t.h.payloadLength.toNat)) ∧
    (t.h.masked = true → ∃ key u, t.h.maskKey = some key ∧
      (∀ j, j < 4 → readByte s.wireIn (t.consumed - t.h.payloadLength.toNat - 4 + j)
        = some ((key >>> (8 * j)).setWidth 8)) ∧
      step (t.presentApplyMask key ((s.wireIn.take t.consumed).drop (t.consumed - t.h.payloadLength.toNat))) = .next u ∧
      u.buf = t.payOut))

/-- A zero-length buffer is a no-op and does not fail. -/
def Obligations.MaskingEmptyBufferIsNoOp : Prop :=
  ∀ (s : State) (key : Key), s.call = some (.applyMask key) → s.buf = [] →
    ∃ t, step s = .next t ∧ t.result = some .ok ∧ t.buf = []

/-- The key rotation law: masking in two parts, the second with the key rotated right by 8 bits for each byte of the first,
is masking the whole. -/
def Obligations.KeyRotationTracksPhase : Prop :=
  ∀ (key : Key) (a b : Bytes),
    applyMask key (a ++ b) = applyMask key a ++ applyMask (key.rotateRight (8 * (a.length % 4))) b ∧
    (a.length % 4 = 0 → applyMask key (a ++ b) = applyMask key a ++ applyMask key b) ∧
    ∀ r j, keyByte (rotKey key r) j = keyByte key (j + r)

/-- The wide-word cascade gives what the byte-wise cipher gives, at every length. -/
def Obligations.WideMaskingIsByteWiseMasking : Prop :=
  ∀ (s : State) (key : Key),
    step { s with call := some (.applyMaskWide key) } = step { s with call := some (.applyMask key) }

/-! ### The state as a whole -/

/-- After reset no operation is in progress and there is no result. (The other values of the reset state are the model's
choice, log 4; nothing is stated of them.) -/
def Obligations.ResetIsIdle : Prop :=
  State.reset.call = none ∧ State.reset.result = none ∧ step State.reset = .next State.reset

/-- The invariant holds after reset (on the reset values the model chose, log 4). -/
def Obligations.InvariantHoldsAtReset : Prop := State.reset.Inv

/-- Every step from every state that has the invariant keeps it: `pos` is `consumed` (10_state.md R18), the last payload and
count fit a header size (44_decoder.md R154), `OUT` is one whole frame that decodes (43_encoder.md R131, 44_decoder.md
R155). That these stand between operations is the model's reading (log 12, log 21). -/
def Obligations.EveryStepKeepsInvariant : Prop :=
  ∀ s t : State, s.Inv → step s = .next t → t.Inv

/-- An operation that raises returns its kind and changes nothing else at all. -/
def Obligations.ErrorChangesNothingElse : Prop :=
  ∀ (s t : State) (c : Call) (k : ErrorKind), s.call = some c → step s = .next t → t.result = some (.err k) →
    t = { s with result := some (.err k), call := none }

/-- No operation writes an input: not a byte of `IN` or `PAY`, not the mode, whatever the result; and APPLY_MASK, by either
path, is the one operation that changes its operand `BUF`. -/
def Obligations.InputsAreNeverWritten : Prop :=
  ∀ s t : State, step s = .next t →
    (∀ a, readByte t.wireIn a = readByte s.wireIn a ∧ readByte t.pay a = readByte s.pay a) ∧ t.dMode = s.dMode ∧
    ((∀ k, s.call ≠ some (.applyMask k)) → (∀ k, s.call ≠ some (.applyMaskWide k)) →
      ∀ a, readByte t.buf a = readByte s.buf a)

/-- What the register-only operations leave unchanged: every buffer, the cursor, `consumed` and the key phase; the header
registers, but for OPC_FROM_RAW, CTL_UNPACK, HDR_NEW, LEN_DEC and KEY_FROM_BYTES; the ports, but for the operations that
have an output there. -/
def Obligations.RegisterOperationsLeaveTheRest : Prop :=
  ∀ (s t : State) (c : Call), s.call = some c → step s = .next t →
    c ≠ .decode → c ≠ .encode → (∀ o f k, c ≠ .encodeMsg o f k) → (∀ k, c ≠ .applyMask k) →
    (∀ k, c ≠ .applyMaskWide k) →
    (∀ a, readByte t.wireIn a = readByte s.wireIn a ∧ readByte t.pay a = readByte s.pay a ∧
      readByte t.buf a = readByte s.buf a ∧ readByte t.wireOut a = readByte s.wireOut a ∧
      readByte t.payOut a = readByte s.payOut a) ∧
    t.pos = s.pos ∧ t.consumed = s.consumed ∧ t.keyPhase = s.keyPhase ∧ t.dMode = s.dMode ∧
    (((∃ v, c = .opcToRaw v) ∨ c = .isControl ∨ c = .opcDemux ∨ (∃ x, c = .ctlPack x) ∨ c = .lenClass ∨
      c = .lenEnc ∨ c = .keyBytes) → t.h = s.h) ∧
    (((∃ n, c = .opcFromRaw n) ∨ (∃ a, c = .hdrNew a) ∨ (∃ f, c = .lenDec f) ∨
      ∃ k0 k1 k2 k3, c = .keyFromBytes k0 k1 k2 k3) → t.ports = s.ports)

/-- The result of every operation depends on its operands alone: between any two states that hold the same operands it ends
the same way, with the same outputs, whatever else the states hold. No operation communicates with a later one but by
values the caller carries over. -/
def Obligations.OperationsDependOnTheirOperandsAlone : Prop :=
  ∀ (s s' t t' : State) (c : Call), s.call = some c → s'.call = some c → c.sameOperands s s' →
    step s = .next t → step s' = .next t' →
    t.result = t'.result ∧ (t.result = some .ok → c.sameOutputs t t')
end

