-- ==== Sys2Proof/Laws/Bits.lean ====
section
/-! SUPPORT. The byte orders and bit fields of a header: each split and join is inverse to the other, and each as a number. -/

namespace Sys2Proof

/-! ### Big-endian and little-endian (20_memory.md R31) -/

theorem be16_of_toBe16 (v : BitVec 16) : be16 (v.extractLsb' 8 8) (v.extractLsb' 0 8) = v := by
  apply BitVec.eq_of_getLsbD_eq
  intro i hi
  simp only [be16, BitVec.getLsbD_append, BitVec.getLsbD_extractLsb']
  interval_cases i <;> simp

theorem toBe16_be16 (a b : Byte) : toBe16 (be16 a b) = [a, b] := by
  simp only [toBe16, be16, List.cons.injEq, and_true]
  refine ⟨?_, ?_⟩ <;>
  · apply BitVec.eq_of_getLsbD_eq
    intro i hi
    simp only [BitVec.getLsbD_append, BitVec.getLsbD_extractLsb']
    interval_cases i <;> simp

theorem be64_of_toBe64 (v : BitVec 64) :
    be64 (v.extractLsb' 56 8) (v.extractLsb' 48 8) (v.extractLsb' 40 8) (v.extractLsb' 32 8)
      (v.extractLsb' 24 8) (v.extractLsb' 16 8) (v.extractLsb' 8 8) (v.extractLsb' 0 8) = v := by
  apply BitVec.eq_of_getLsbD_eq
  intro i hi
  simp only [be64, BitVec.getLsbD_append, BitVec.getLsbD_extractLsb']
  interval_cases i <;> simp

theorem toBe64_be64 (a b c d e f g h : Byte) : toBe64 (be64 a b c d e f g h) = [a, b, c, d, e, f, g, h] := by
  simp only [toBe64, be64, List.cons.injEq, and_true]
  refine ⟨?_, ?_, ?_, ?_, ?_, ?_, ?_, ?_⟩ <;>
  · apply BitVec.eq_of_getLsbD_eq
    intro i hi
    simp only [BitVec.getLsbD_append, BitVec.getLsbD_extractLsb']
    interval_cases i <;> simp

theorem le32_keyBytes (k : Key) : le32 (keyByte k 0) (keyByte k 1) (keyByte k 2) (keyByte k 3) = k := by
  apply BitVec.eq_of_getLsbD_eq
  intro i hi
  simp only [le32, keyByte, BitVec.getLsbD_append, BitVec.getLsbD_extractLsb']
  interval_cases i <;> simp

theorem toLe32_le32 (a b c d : Byte) : toLe32 (le32 a b c d) = [a, b, c, d] := by
  simp only [toLe32, le32, keyByte, List.cons.injEq, and_true]
  refine ⟨?_, ?_, ?_, ?_⟩ <;>
  · apply BitVec.eq_of_getLsbD_eq
    intro i hi
    simp only [BitVec.getLsbD_append, BitVec.getLsbD_extractLsb']
    interval_cases i <;> simp

@[simp] theorem toBe16_length (v : BitVec 16) : (toBe16 v).length = 2 := rfl
@[simp] theorem toBe64_length (v : BitVec 64) : (toBe64 v).length = 8 := rfl
@[simp] theorem toLe32_length (k : Key) : (toLe32 k).length = 4 := rfl

theorem be16_toNat (a b : Byte) : (be16 a b).toNat = 256 * a.toNat + b.toNat := by
  have := b.isLt
  simp only [be16, BitVec.toNat_append, Nat.shiftLeft_eq]
  rw [← Nat.shiftLeft_eq, ← Nat.shiftLeft_add_eq_or_of_lt this, Nat.shiftLeft_eq]; omega

theorem append_byte_toNat {n : Nat} (x : BitVec n) (b : Byte) : (x ++ b).toNat = 256 * x.toNat + b.toNat := by
  have := b.isLt
  rw [BitVec.toNat_append, ← Nat.shiftLeft_add_eq_or_of_lt this, Nat.shiftLeft_eq]; omega

theorem be64_toNat (a b c d e f g h : Byte) : (be64 a b c d e f g h).toNat =
    2 ^ 56 * a.toNat + 2 ^ 48 * b.toNat + 2 ^ 40 * c.toNat + 2 ^ 32 * d.toNat + 2 ^ 24 * e.toNat
      + 2 ^ 16 * f.toNat + 2 ^ 8 * g.toNat + h.toNat := by
  simp only [be64, append_byte_toNat]; omega

theorem le32_toNat (a b c d : Byte) :
    (le32 a b c d).toNat = a.toNat + 256 * b.toNat + 65536 * c.toNat + 16777216 * d.toNat := by
  simp only [le32, append_byte_toNat]; omega

/-- Bit 63 of the 64-bit length is bit 7 of its first byte (30_encoding.md R57), and is 0 exactly below 2^63. -/
theorem be64_topBit (a b c d e f g h : Byte) : (be64 a b c d e f g h).getLsbD 63 = a.getLsbD 7 := by
  simp only [be64, BitVec.getLsbD_append]
  rfl

theorem getLsbD_63_iff (n : Len) : n.getLsbD 63 = true ↔ 2 ^ 63 ≤ n.toNat := by
  have := BitVec.msb_eq_decide n
  simp [BitVec.msb, BitVec.getMsbD] at this
  simp [this]

theorem getLsbD_7_iff (b : Byte) : b.getLsbD 7 = true ↔ 128 ≤ b.toNat := by
  revert b; decide

/-! ### The two fixed header bytes (30_encoding.md R52, R53) -/

@[simp] theorem opcodeField_packByte0 (f a b c : Bool) (o : BitVec 4) : opcodeField (packByte0 f a b c o) = o := by
  revert f a b c o; decide

@[simp] theorem unpackByte0_packByte0 (f a b c : Bool) (o : BitVec 4) :
    unpackByte0 (packByte0 f a b c o) = ⟨f, a, b, c, o⟩ := by
  revert f a b c o; decide

theorem packByte0_unpackByte0 (b0 : Byte) :
    packByte0 (unpackByte0 b0).fin (unpackByte0 b0).rsv1 (unpackByte0 b0).rsv2 (unpackByte0 b0).rsv3
      (unpackByte0 b0).opcode = b0 := by
  revert b0; decide

@[simp] theorem maskField_packByte1 (m : Bool) (s : Sel) : maskField (packByte1 m s) = m := by
  revert m s; decide

@[simp] theorem selField_packByte1 (m : Bool) (s : Sel) : selField (packByte1 m s) = s := by
  revert m s; decide

theorem packByte1_unpack (b : Byte) : packByte1 (maskField b) (selField b) = b := by
  revert b; decide

theorem packByte0_eq (f a b c : Bool) (o : BitVec 4) : packByte0 f a b c o =
    BitVec.ofNat 8 (128 * f.toNat + 64 * a.toNat + 32 * b.toNat + 16 * c.toNat + o.toNat) := by
  revert f a b c o; decide

theorem packByte1_eq (m : Bool) (s : Sel) : packByte1 m s = BitVec.ofNat 8 (128 * m.toNat + s.toNat) := by
  revert m s; decide

theorem unpackCtl_pack (f a b c m : Bool) (o : BitVec 4) (s : Sel) :
    unpackCtl (packByte0 f a b c o) (packByte1 m s) = ⟨f, a, b, c, m, s⟩ := by
  have h := unpackByte0_packByte0 f a b c o
  simp only [unpackByte0, Byte0.mk.injEq] at h
  simp only [unpackCtl, h, maskField_packByte1, selField_packByte1]

/-! ### The length and key sizes (30_encoding.md R51) -/

theorem sel_cases (sel : Sel) : sel.toNat ≤ 125 ∨ sel = 126 ∨ sel = 127 := by
  revert sel; decide

theorem extSize_of_le (sel : Sel) (h : sel.toNat ≤ 125) : extSize sel = 0 := by simp [extSize, h]
@[simp] theorem extSize_126 : extSize 126 = 2 := rfl
@[simp] theorem extSize_127 : extSize 127 = 8 := rfl
/-- The same on the literal form `simp` normalises to. -/
@[simp] theorem extSize_126_lit : extSize 126#7 = 2 := rfl
@[simp] theorem extSize_127_lit : extSize 127#7 = 8 := rfl
@[simp] theorem keySize_true : keySize true = 4 := rfl
@[simp] theorem keySize_false : keySize false = 0 := rfl

theorem headerSize_le (m : Bool) (sel : Sel) : 2 ≤ headerSize m sel ∧ headerSize m sel ≤ 14 := by
  revert m sel; decide

/-! ### The opcode table (30_encoding.md R60) -/

theorem opcodeField_lt (b0 : Byte) : (opcodeField b0).toNat < 16 := (opcodeField b0).isLt

@[simp] theorem Instr.kind_ofOpcode (o : Opcode) (c : Ctl) : (Instr.ofOpcode o c).kind = .byte0 := by
  cases o <;> rfl

@[simp] theorem Instr.wf_ofOpcode (o : Opcode) (c : Ctl) : (Instr.ofOpcode o c).wf = true := by
  cases o <;> rfl

@[simp] theorem Instr.maskBit_ofOpcode (o : Opcode) (c : Ctl) : (Instr.ofOpcode o c).maskBit = c.masked := by
  cases o <;> rfl

@[simp] theorem encode_ofOpcode (o : Opcode) (c : Ctl) : encode (.ofOpcode o c) = encodeCtl o c := by
  cases o <;> rfl

/-- The BYTE0 rows are the rows `ofOpcode` makes. -/
theorem Instr.eq_ofOpcode_of_kind {i : Instr} (h : i.kind = .byte0) : ∃ o c, i = .ofOpcode o c := by
  cases i with
  | continuation c => exact ⟨.continuation, c, rfl⟩
  | text c => exact ⟨.text, c, rfl⟩
  | binary c => exact ⟨.binary, c, rfl⟩
  | reserved3 c => exact ⟨.reserved3, c, rfl⟩
  | reserved4 c => exact ⟨.reserved4, c, rfl⟩
  | reserved5 c => exact ⟨.reserved5, c, rfl⟩
  | reserved6 c => exact ⟨.reserved6, c, rfl⟩
  | reserved7 c => exact ⟨.reserved7, c, rfl⟩
  | close c => exact ⟨.close, c, rfl⟩
  | ping c => exact ⟨.ping, c, rfl⟩
  | pong c => exact ⟨.pong, c, rfl⟩
  | reserved11 c => exact ⟨.reserved11, c, rfl⟩
  | reserved12 c => exact ⟨.reserved12, c, rfl⟩
  | reserved13 c => exact ⟨.reserved13, c, rfl⟩
  | reserved14 c => exact ⟨.reserved14, c, rfl⟩
  | reserved15 c => exact ⟨.reserved15, c, rfl⟩
  | f7u _ _ => cases h
  | f7m _ _ _ => cases h
  | f16u _ _ => cases h
  | f16m _ _ _ => cases h
  | f64u _ _ => cases h
  | f64m _ _ _ => cases h

end Sys2Proof
end

