-- ==== Sys2Proof/Laws/State.lean ====
section
/-! SUPPORT. What each state update leaves and writes, one lemma per field, true by rfl; so that no proof unfolds a record
update. -/

namespace Sys2Proof.Machine

/-! ### `State.done` -/

@[simp] theorem State.done_h (s : State) : (s.done).h = s.h := rfl
@[simp] theorem State.done_pos (s : State) : (s.done).pos = s.pos := rfl
@[simp] theorem State.done_consumed (s : State) : (s.done).consumed = s.consumed := rfl
@[simp] theorem State.done_keyPhase (s : State) : (s.done).keyPhase = s.keyPhase := rfl
@[simp] theorem State.done_dMode (s : State) : (s.done).dMode = s.dMode := rfl
@[simp] theorem State.done_wireIn (s : State) : (s.done).wireIn = s.wireIn := rfl
@[simp] theorem State.done_pay (s : State) : (s.done).pay = s.pay := rfl
@[simp] theorem State.done_buf (s : State) : (s.done).buf = s.buf := rfl
@[simp] theorem State.done_wireOut (s : State) : (s.done).wireOut = s.wireOut := rfl
@[simp] theorem State.done_payOut (s : State) : (s.done).payOut = s.payOut := rfl
@[simp] theorem State.done_ports (s : State) : (s.done).ports = s.ports := rfl
@[simp] theorem State.done_result (s : State) : (s.done).result = some .ok := rfl
@[simp] theorem State.done_call (s : State) : (s.done).call = none := rfl

/-! ### `State.raise` -/

@[simp] theorem State.raise_h (s : State) (k : ErrorKind) : (s.raise k).h = s.h := rfl
@[simp] theorem State.raise_pos (s : State) (k : ErrorKind) : (s.raise k).pos = s.pos := rfl
@[simp] theorem State.raise_consumed (s : State) (k : ErrorKind) : (s.raise k).consumed = s.consumed := rfl
@[simp] theorem State.raise_keyPhase (s : State) (k : ErrorKind) : (s.raise k).keyPhase = s.keyPhase := rfl
@[simp] theorem State.raise_dMode (s : State) (k : ErrorKind) : (s.raise k).dMode = s.dMode := rfl
@[simp] theorem State.raise_wireIn (s : State) (k : ErrorKind) : (s.raise k).wireIn = s.wireIn := rfl
@[simp] theorem State.raise_pay (s : State) (k : ErrorKind) : (s.raise k).pay = s.pay := rfl
@[simp] theorem State.raise_buf (s : State) (k : ErrorKind) : (s.raise k).buf = s.buf := rfl
@[simp] theorem State.raise_wireOut (s : State) (k : ErrorKind) : (s.raise k).wireOut = s.wireOut := rfl
@[simp] theorem State.raise_payOut (s : State) (k : ErrorKind) : (s.raise k).payOut = s.payOut := rfl
@[simp] theorem State.raise_ports (s : State) (k : ErrorKind) : (s.raise k).ports = s.ports := rfl
@[simp] theorem State.raise_result (s : State) (k : ErrorKind) : (s.raise k).result = some (.err k) := rfl
@[simp] theorem State.raise_call (s : State) (k : ErrorKind) : (s.raise k).call = none := rfl

/-! ### `State.deliver` -/

@[simp] theorem State.deliver_h (s : State) (d : Decoded) : (s.deliver d).h = d.header := rfl
@[simp] theorem State.deliver_pos (s : State) (d : Decoded) : (s.deliver d).pos = d.consumed := rfl
@[simp] theorem State.deliver_consumed (s : State) (d : Decoded) : (s.deliver d).consumed = d.consumed := rfl
@[simp] theorem State.deliver_keyPhase (s : State) (d : Decoded) : (s.deliver d).keyPhase = if d.header.masked then phaseAfter d.payload.length else s.keyPhase := rfl
@[simp] theorem State.deliver_dMode (s : State) (d : Decoded) : (s.deliver d).dMode = s.dMode := rfl
@[simp] theorem State.deliver_wireIn (s : State) (d : Decoded) : (s.deliver d).wireIn = s.wireIn := rfl
@[simp] theorem State.deliver_pay (s : State) (d : Decoded) : (s.deliver d).pay = s.pay := rfl
@[simp] theorem State.deliver_buf (s : State) (d : Decoded) : (s.deliver d).buf = s.buf := rfl
@[simp] theorem State.deliver_wireOut (s : State) (d : Decoded) : (s.deliver d).wireOut = s.wireOut := rfl
@[simp] theorem State.deliver_payOut (s : State) (d : Decoded) : (s.deliver d).payOut = d.payload := rfl
@[simp] theorem State.deliver_ports (s : State) (d : Decoded) : (s.deliver d).ports = s.ports := rfl
@[simp] theorem State.deliver_result (s : State) (d : Decoded) : (s.deliver d).result = some .ok := rfl
@[simp] theorem State.deliver_call (s : State) (d : Decoded) : (s.deliver d).call = none := rfl

/-! ### The end of an operation -/

@[simp] theorem State.finishDecode_ok (s : State) (d : Decoded) : s.finishDecode (.ok d) = s.deliver d := rfl
@[simp] theorem State.finishDecode_error (s : State) (e : ErrorKind) : s.finishDecode (.error e) = s.raise e := rfl
@[simp] theorem State.finishEncode_error (s : State) (m : Bool) (e : ErrorKind) :
    s.finishEncode m (.error e) = s.raise e := rfl
@[simp] theorem State.finishEncode_ok (s : State) (m : Bool) (out : Bytes) :
    s.finishEncode m (.ok out) =
      State.done { s with wireOut := out, keyPhase := if m then phaseAfter s.pay.length else s.keyPhase } := rfl

/-! ### The pair `masked`, `mask_key` (10_state.md R13) -/

@[simp] theorem Header.masked_none {h : Header} (e : h.maskKey = none) : h.masked = false := by simp [Header.masked, e]
@[simp] theorem Header.masked_some {h : Header} {k : Key} (e : h.maskKey = some k) : h.masked = true := by
  simp [Header.masked, e]
@[simp] theorem Header.masked_mk (fin rsv1 rsv2 rsv3 : Bool) (opcode : BitVec 4) (key : Option Key) (n : Len) :
    (Header.mk fin rsv1 rsv2 rsv3 opcode key n).masked = key.isSome := rfl
@[simp] theorem newHeader_masked (arg : HeaderArg) : (newHeader arg).masked = arg.masked := by
  cases h : arg.masked <;> simp [newHeader, h]
@[simp] theorem wireHeader_masked (op : BitVec 4) (fin rsv1 rsv2 rsv3 : Bool) (n : Len) (key : Option Key) :
    (wireHeader op fin rsv1 rsv2 rsv3 n key).masked = key.isSome := rfl
@[simp] theorem maskAfterUnpack_isSome (key : Option Key) (byte0 byte1 : Byte) :
    (maskAfterUnpack key byte0 byte1).isSome = maskField byte1 := by
  cases h : maskField byte1 <;> simp [maskAfterUnpack, h]
@[simp] theorem ctlUnpack_masked (h : Header) (byte0 byte1 : Byte) :
    (ctlUnpack h byte0 byte1).masked = maskField byte1 := maskAfterUnpack_isSome _ _ _

end Sys2Proof.Machine
end

