-- ==== Sys2Proof/Laws/Ops.lean ====
section
/-! SUPPORT. One lemma per shared operation that says everything it can do: the reads of a buffer, the length and key
fields, the checks. -/

namespace Sys2Proof.Machine

/-! ### Reading a buffer (20_memory.md R36, R45) -/

theorem fetch_ok {inp : Bytes} {pos n : Nat} (h : pos + n ≤ inp.length) :
    fetch inp pos n = .ok ((inp.drop pos).take n, pos + n) := by
  simp [fetch, memRead, h]

theorem fetch_short {inp : Bytes} {pos n : Nat} (h : inp.length < pos + n) :
    fetch inp pos n = .error .incomplete := by
  simp [fetch, Nat.not_le.mpr h]

/-- A read answers the bytes asked for and the advanced cursor, or `Incomplete`. -/
theorem fetch_cases (inp : Bytes) (pos n : Nat) :
    (pos + n ≤ inp.length ∧ fetch inp pos n = .ok ((inp.drop pos).take n, pos + n)) ∨
      (inp.length < pos + n ∧ fetch inp pos n = .error .incomplete) := by
  rcases Nat.lt_or_ge inp.length (pos + n) with h | h
  · exact .inr ⟨h, fetch_short h⟩
  · exact .inl ⟨h, fetch_ok h⟩

/-- `n` bytes at an offset are the bytes read there one by one. -/
theorem take_succ_drop {inp : Bytes} {a n : Nat} (h : a < inp.length) :
    (inp.drop a).take (n + 1) = inp[a] :: (inp.drop (a + 1)).take n := by
  rw [List.drop_eq_getElem_cons h, List.take_succ_cons]

theorem byteNat_eq {inp : Bytes} {a : Nat} (h : a < inp.length) : byteNat inp a = inp[a].toNat := by
  simp [byteNat, readByte, h]

theorem byteNat_lt (inp : Bytes) (a : Nat) : byteNat inp a < 256 := BitVec.isLt _

/-! ### The length field (41_length_coder.md R112) -/

/-- The form a selector stands for. -/
def selForm (sel : Sel) : LenClass :=
  if sel.toNat ≤ 125 then .inline else if sel.toNat = 126 then .ext16 else .ext64

/-- What reading a frame's length gives: `Incomplete`, or the field whose value is the declared length. -/
theorem fetchLenField_cases (inp : Bytes) (sel : Sel) :
    (inp.length < 2 + extSize sel ∧ fetchLenField inp 2 sel = .error .incomplete) ∨
    (2 + extSize sel ≤ inp.length ∧ ∃ f, fetchLenField inp 2 sel = .ok (f, 2 + extSize sel) ∧
      f.value = BitVec.ofNat 64 (declaredLength sel inp) ∧ f.value.toNat = declaredLength sel inp ∧
      f.form = selForm sel) := by
  rcases fetch_cases inp 2 (extSize sel) with ⟨h, e⟩ | ⟨h, e⟩
  · refine .inr ⟨h, ?_⟩
    suffices hv : ∃ f, LenField.ofBytes sel ((inp.drop 2).take (extSize sel)) = some f ∧
        f.value.toNat = declaredLength sel inp ∧ f.form = selForm sel by
      obtain ⟨f, hf, hn, hform⟩ := hv
      refine ⟨f, by simp [fetchLenField, e, hf], ?_, hn, hform⟩
      rw [← hn, BitVec.ofNat_toNat, BitVec.setWidth_eq]
    rcases sel_cases sel with hs | rfl | rfl
    · refine ⟨.inline ⟨sel.toNat, Nat.lt_succ_of_le hs⟩, by simp [LenField.ofBytes, hs], ?_, by simp [LenField.form, selForm, hs]⟩
      simp only [LenField.value, declaredLength, hs, if_true, BitVec.toNat_ofNat]
      omega
    · simp only [extSize_126] at h ⊢
      refine ⟨.ext16 inp[2] inp[3], ?_, ?_, rfl⟩
      · rw [take_succ_drop (by omega), take_succ_drop (by omega)]; rfl
      · have h16 := be16_toNat inp[2] inp[3]
        have hlt := (be16 inp[2] inp[3]).isLt
        simp only [LenField.value, BitVec.toNat_setWidth, declaredLength, byteNat_eq (show 2 < inp.length by omega),
          byteNat_eq (show 3 < inp.length by omega)]
        rw [Nat.mod_eq_of_lt (by omega), h16]; rfl
    · simp only [extSize_127] at h ⊢
      refine ⟨.ext64 inp[2] inp[3] inp[4] inp[5] inp[6] inp[7] inp[8] inp[9], ?_, ?_, rfl⟩
      · rw [take_succ_drop (by omega), take_succ_drop (by omega), take_succ_drop (by omega), take_succ_drop (by omega),
          take_succ_drop (by omega), take_succ_drop (by omega), take_succ_drop (by omega), take_succ_drop (by omega)]
        rfl
      · simp only [LenField.value, be64_toNat, declaredLength, byteNat_eq (show 2 < inp.length by omega),
          byteNat_eq (show 3 < inp.length by omega), byteNat_eq (show 4 < inp.length by omega),
          byteNat_eq (show 5 < inp.length by omega), byteNat_eq (show 6 < inp.length by omega),
          byteNat_eq (show 7 < inp.length by omega), byteNat_eq (show 8 < inp.length by omega),
          byteNat_eq (show 9 < inp.length by omega)]
        rfl
  · exact .inl ⟨h, by simp [fetchLenField, e]⟩

/-- The declared length always fits the 64-bit register. -/
theorem declaredLength_lt (sel : Sel) (inp : Bytes) : declaredLength sel inp < 2 ^ 64 := by
  have b := byteNat_lt inp
  have := b 2; have := b 3; have := b 4; have := b 5; have := b 6; have := b 7; have := b 8; have := b 9
  have := sel.isLt
  unfold declaredLength
  split
  · omega
  split <;> omega

@[simp] theorem ofNat_declaredLength_toNat (sel : Sel) (inp : Bytes) :
    (BitVec.ofNat 64 (declaredLength sel inp)).toNat = declaredLength sel inp := by
  rw [BitVec.toNat_ofNat, Nat.mod_eq_of_lt (declaredLength_lt _ _)]

theorem declaredLength_lt_of_ext16 (sel : Sel) (inp : Bytes) (h : sel.toNat ≤ 126) :
    declaredLength sel inp < 2 ^ 16 := by
  have b := byteNat_lt inp
  have := b 2; have := b 3
  unfold declaredLength
  split
  · omega
  · split <;> omega

/-- Two buffers that agree on the bytes a length takes declare the same length. -/
theorem declaredLength_congr {sel : Sel} {a b : Bytes}
    (h : ∀ i, i < 2 + extSize sel → readByte a i = readByte b i) : declaredLength sel a = declaredLength sel b := by
  have e : ∀ i, i < 2 + extSize sel → byteNat a i = byteNat b i := fun i hi => by simp [byteNat, h i hi]
  rcases sel_cases sel with hs | rfl | rfl
  · simp [declaredLength, hs]
  · simp only [extSize_126] at e
    simp [declaredLength, e 2 (by omega), e 3 (by omega)]
  · simp only [extSize_127] at e
    simp [declaredLength, e 2 (by omega), e 3 (by omega), e 4 (by omega), e 5 (by omega), e 6 (by omega),
      e 7 (by omega), e 8 (by omega), e 9 (by omega)]

/-- LEN_DEC by the value alone (R112). -/
theorem lenDec_eq (p : Params) (f : LenField) :
    lenDec p f = if 2 ^ 63 ≤ f.value.toNat then .error .invalidLength
      else match minimalFault p f.form f.value with
        | some e => .error e
        | none => .ok f.value := by
  unfold lenDec
  by_cases h : 2 ^ 63 ≤ f.value.toNat
  · rw [if_pos ((getLsbD_63_iff _).mpr h), if_pos h]
  · exact (if_neg fun h' => h ((getLsbD_63_iff _).mp h')).trans (if_neg h).symm

@[simp] theorem minimalFault_buildParams (form : LenClass) (n : Len) : minimalFault buildParams form n = none := rfl

/-! ### The key field (30_encoding.md R58) -/

theorem wireKey_eq {inp : Bytes} {a : Nat} (h : a + 4 ≤ inp.length) :
    wireKey inp a = le32 inp[a] inp[a + 1] inp[a + 2] inp[a + 3] := by
  apply BitVec.eq_of_toNat_eq
  have := (le32 inp[a] inp[a + 1] inp[a + 2] inp[a + 3]).isLt
  have e := le32_toNat inp[a] inp[a + 1] inp[a + 2] inp[a + 3]
  simp only [wireKey, byteNat_eq (show a < inp.length by omega), byteNat_eq (show a + 1 < inp.length by omega),
    byteNat_eq (show a + 2 < inp.length by omega), byteNat_eq (show a + 3 < inp.length by omega), BitVec.toNat_ofNat]
  rw [e, Nat.mod_eq_of_lt (by omega)]

/-- What reading a frame's key gives: `Incomplete`, or its little-endian value. -/
theorem fetchKey_cases (inp : Bytes) (pos : Nat) :
    (inp.length < pos + 4 ∧ fetchKey inp pos = .error .incomplete) ∨
    (pos + 4 ≤ inp.length ∧ fetchKey inp pos = .ok (wireKey inp pos, pos + 4)) := by
  rcases fetch_cases inp pos 4 with ⟨h, e⟩ | ⟨h, e⟩
  · refine .inr ⟨h, ?_⟩
    rw [take_succ_drop (by omega), take_succ_drop (by omega), take_succ_drop (by omega), take_succ_drop (by omega),
      List.take_zero] at e
    simp [fetchKey, e, wireKey_eq h]
  · exact .inl ⟨h, by simp [fetchKey, e]⟩

/-! ### The checks (40_header_model.md R86, 44_decoder.md R148) -/

theorem isControlCode_iff (c : BitVec 4) : isControlCode c = true ↔ c = 8 ∨ c = 9 ∨ c = 10 := by
  revert c; decide

@[simp] theorem controlChecked_buildParams (c : BitVec 4) : controlChecked buildParams c = isControlCode c := rfl

/-- With the build's parameters, the control checks fail exactly outside the control-frame limits. -/
theorem controlFault_none_iff (op : BitVec 4) (fin : Bool) (n : Len) :
    controlFault buildParams op fin n = none ↔ controlLimitsMet op fin n.toNat = true := by
  have hc : buildParams.checkControlFin = true := rfl
  rcases h : isControlCode op <;> cases fin <;> simp [controlFault, controlLimitsMet, h, hc]
  split <;> simp

/-- With the build's parameters, the mode check passes exactly in the mode the MASK bit meets, and is `ProtocolError`
otherwise. -/
theorem modeFault_buildParams (m : Mode) (masked : Bool) :
    modeFault buildParams m masked = if m = modeOf masked then none else some .protocolError := by
  cases m <;> cases masked <;> rfl

end Sys2Proof.Machine
end

