-- ==== Sys2Proof/Laws/Masking.lean ====
section
/-! SUPPORT. What the byte-wise cipher gives, byte by byte, and its small lemmas (spec 42_masking.md R120 to R126). -/

namespace Sys2Proof.Machine

@[simp] theorem maskFrom_nil (key : Key) (i : Nat) : maskFrom key i [] = [] := rfl

@[simp] theorem maskFrom_cons (key : Key) (i : Nat) (b : Byte) (bs : Bytes) :
    maskFrom key i (b :: bs) = (b ^^^ keyByte key i) :: maskFrom key (i + 1) bs := rfl

@[simp] theorem maskFrom_length (key : Key) (i : Nat) (bs : Bytes) : (maskFrom key i bs).length = bs.length := by
  induction bs generalizing i with
  | nil => rfl
  | cons b bs ih => simp [ih]

@[simp] theorem applyMask_length (key : Key) (bs : Bytes) : (applyMask key bs).length = bs.length :=
  maskFrom_length key 0 bs

/-- The key byte depends on the position modulo 4 only: the key phase. -/
theorem keyByte_congr (key : Key) {i j : Nat} (h : i % 4 = j % 4) : keyByte key i = keyByte key j := by
  simp [keyByte, h]

theorem keyByte_eq_shift (key : Key) (i : Nat) : keyByte key i = (key >>> (8 * (i % 4))).setWidth 8 := by
  apply BitVec.eq_of_getLsbD_eq
  intro j hj
  simp [keyByte, hj]

/-- Each byte of a masked buffer: its own byte XORed with the key byte of its position. -/
theorem maskFrom_getElem? (key : Key) (i a : Nat) (bs : Bytes) :
    (maskFrom key i bs)[a]? = bs[a]?.map fun b => b ^^^ keyByte key (i + a) := by
  induction bs generalizing i a with
  | nil => simp
  | cons b bs ih =>
    cases a with
    | zero => simp
    | succ a => simp [ih, Nat.add_assoc, Nat.add_comm 1 a]

theorem maskFrom_append (key : Key) (i : Nat) (a b : Bytes) :
    maskFrom key i (a ++ b) = maskFrom key i a ++ maskFrom key (i + a.length) b := by
  induction a generalizing i with
  | nil => simp
  | cons x a ih => simp [ih, Nat.add_assoc, Nat.add_comm 1]

theorem maskFrom_congr (key : Key) {i j : Nat} (h : i % 4 = j % 4) (bs : Bytes) :
    maskFrom key i bs = maskFrom key j bs := by
  induction bs generalizing i j with
  | nil => rfl
  | cons b bs ih => rw [maskFrom_cons, maskFrom_cons, keyByte_congr key h, ih (show (i + 1) % 4 = (j + 1) % 4 by omega)]

/-- The cipher is its own inverse at every phase. -/
theorem maskFrom_maskFrom (key : Key) (i : Nat) (bs : Bytes) : maskFrom key i (maskFrom key i bs) = bs := by
  induction bs generalizing i with
  | nil => rfl
  | cons b bs ih => simp [ih]

/-- The unmasked payload as the claims write it is the cipher's output. -/
theorem plainPayload_eq_unmask (key : Option Key) (raw : Bytes) : plainPayload key raw = unmask key raw := by
  cases key with
  | none => rfl
  | some k =>
    apply List.ext_getElem?
    intro a
    simp [plainPayload, unmask, applyMask, maskFrom_getElem?, keyByte_eq_shift]

@[simp] theorem unmask_length (key : Option Key) (raw : Bytes) : (unmask key raw).length = raw.length := by
  cases key <;> simp [unmask]

/-- Unmasking what was masked with the same key gives the payload back. -/
theorem unmask_unmask (key : Option Key) (raw : Bytes) : unmask key (unmask key raw) = raw := by
  cases key with
  | none => rfl
  | some k => exact maskFrom_maskFrom k 0 raw

theorem toLe32_eq_shifts (k : Key) :
    toLe32 k = [k.setWidth 8, (k >>> 8).setWidth 8, (k >>> 16).setWidth 8, (k >>> 24).setWidth 8] := by
  simp [toLe32, keyByte_eq_shift]

end Sys2Proof.Machine
end

