-- ==== Sys2Proof/Laws/Decoder.lean ====
section
/-! SUPPORT. Everything the decoder can do, said once: its stages as checks on the bytes of `IN` (spec 44_decoder.md R146). -/

namespace Sys2Proof.Machine

/-- Stage S3: `Incomplete`, or the payload behind the header. -/
theorem receivePayload_eq (inp : Bytes) (pos : Nat) (h : Header) :
    receivePayload inp pos h =
      if inp.length < pos + h.payloadLength.toNat then .error .incomplete
      else .ok ⟨h, unmask h.maskKey ((inp.drop pos).take h.payloadLength.toNat), pos + h.payloadLength.toNat⟩ := by
  rcases fetch_cases inp pos h.payloadLength.toNat with ⟨hl, e⟩ | ⟨hl, e⟩
  · simp [receivePayload, e, Nat.not_lt.mpr hl]
  · simp [receivePayload, e, hl]

/-- The header stages S2 and S3 end with. -/
def receivedHeader (op : BitVec 4) (c : Ctl) (inp : Bytes) : Header :=
  wireHeader op c.fin c.rsv1 c.rsv2 c.rsv3 (BitVec.ofNat 64 (declaredLength c.sel inp)) (frameKey c.masked c.sel inp)

/-- The outcome of a whole frame. -/
def receivedFrame (op : BitVec 4) (c : Ctl) (inp : Bytes) : Decoded where
  header := receivedHeader op c inp
  payload := unmask (frameKey c.masked c.sel inp)
    ((inp.drop (headerSize c.masked c.sel)).take (declaredLength c.sel inp))
  consumed := headerSize c.masked c.sel + declaredLength c.sel inp

/-- Stages S2 and S3 after the length has been read: `Incomplete` unless header and payload are all there. -/
theorem receiveKey_eq (inp : Bytes) (op : BitVec 4) (c : Ctl) :
    receiveKey inp (2 + extSize c.sel) op c (BitVec.ofNat 64 (declaredLength c.sel inp)) =
      if inp.length < headerSize c.masked c.sel + declaredLength c.sel inp then .error .incomplete
      else .ok (receivedFrame op c inp) := by
  have hn := ofNat_declaredLength_toNat c.sel inp
  rcases hm : c.masked
  · simp only [receiveKey, hm, receivePayload_eq, wireHeader, hn, receivedFrame, receivedHeader, frameKey, headerSize,
      keySize_false]
    rfl
  · rcases fetchKey_cases inp (2 + extSize c.sel) with ⟨hl, e⟩ | ⟨hl, e⟩
    · have : inp.length < headerSize true c.sel + declaredLength c.sel inp := by
        simp only [headerSize, keySize_true]; omega
      simp [receiveKey, hm, e, this]
    · simp only [receiveKey, hm, e, receivePayload_eq, wireHeader, hn, receivedFrame, receivedHeader, frameKey,
        headerSize, keySize_true]
      rfl

/-- DECODE from the two fixed header bytes on, check by check, for any parameters. -/
theorem receiveWord_eq (p : Params) (m : Mode) (inp : Bytes) (op : BitVec 4) (c : Ctl) :
    receiveWord p m inp op c =
      match modeFault p m c.masked with
      | some e => .error e
      | none =>
        if inp.length < 2 + extSize c.sel then .error .incomplete
        else if 2 ^ 63 ≤ declaredLength c.sel inp then .error .invalidLength
        else
          match minimalFault p (selForm c.sel) (BitVec.ofNat 64 (declaredLength c.sel inp)) with
          | some e => .error e
          | none =>
            match controlFault p op c.fin (BitVec.ofNat 64 (declaredLength c.sel inp)) with
            | some e => .error e
            | none =>
              if inp.length < headerSize c.masked c.sel + declaredLength c.sel inp then .error .incomplete
              else .ok (receivedFrame op c inp) := by
  unfold receiveWord
  cases modeFault p m c.masked with
  | some e => rfl
  | none =>
    rcases fetchLenField_cases inp c.sel with ⟨hl, e⟩ | ⟨hl, f, e, hv, hn, hform⟩
    · simp only [e, hl, if_true]
    · simp only [e, lenDec_eq, hform, hv, ofNat_declaredLength_toNat, Nat.not_lt.mpr hl, if_false]
      by_cases h63 : 2 ^ 63 ≤ declaredLength c.sel inp
      · simp only [h63, if_true]
      · simp only [h63, if_false]
        cases minimalFault p (selForm c.sel) (BitVec.ofNat 64 (declaredLength c.sel inp)) with
        | some e => rfl
        | none =>
          dsimp only
          cases controlFault p op c.fin (BitVec.ofNat 64 (declaredLength c.sel inp)) with
          | some e => rfl
          | none => exact receiveKey_eq inp op c

/-- DECODE of a frame whose two fixed header bytes are there. -/
theorem decodeFrame_cons (p : Params) (m : Mode) (b0 b1 : Byte) (rest : Bytes) :
    decodeFrame p m (b0 :: b1 :: rest) =
      receiveWord p m (b0 :: b1 :: rest) (opcodeField b0) (unpackCtl b0 b1) := by
  have h : fetch (b0 :: b1 :: rest) 0 2 = .ok ([b0, b1], 2) := by
    rw [fetch_ok (by simp)]; rfl
  simp [decodeFrame, h]

/-- With fewer than two bytes DECODE is `Incomplete` (R147). -/
theorem decodeFrame_short (p : Params) (m : Mode) {inp : Bytes} (h : inp.length < 2) :
    decodeFrame p m inp = .error .incomplete := by
  rw [decodeFrame, fetch_short (by omega)]

/-- Two buffers that agree where a header stands carry the same key. -/
theorem frameKey_congr {masked : Bool} {sel : Sel} {a b : Bytes}
    (h : ∀ i, i < headerSize masked sel → readByte a i = readByte b i) :
    frameKey masked sel a = frameKey masked sel b := by
  cases masked with
  | false => rfl
  | true =>
    have e : ∀ i, i < headerSize true sel → byteNat a i = byteNat b i := fun i hi => by simp [byteNat, h i hi]
    simp only [headerSize, keySize_true] at e
    simp [frameKey, wireKey, e (2 + extSize sel) (by omega), e (2 + extSize sel + 1) (by omega),
      e (2 + extSize sel + 2) (by omega), e (2 + extSize sel + 3) (by omega)]

end Sys2Proof.Machine
end

