-- ==== Sys2Proof/Laws/Encoder.lean ====
section
/-! SUPPORT. Everything the encoder can do, said once: its checks, and the bytes it puts out in the order of their fields
(spec 43_encoder.md R131, 40_header_model.md R86). -/

namespace Sys2Proof.Machine

/-- The validator's checks V1, V2, V3 with the build's parameters, in their order. -/
theorem headerFault_eq (op : BitVec 4) (fin : Bool) (n : Len) :
    headerFault buildParams op fin n =
      if 2 ^ 63 ≤ n.toNat then some .invalidLength
      else if isControlCode op = true ∧ 125 < n.toNat then some .invalidLength
      else if isControlCode op = true ∧ fin = false then some .protocolError
      else none := by
  simp [headerFault, controlFault, show buildParams.checkControlFin = true from rfl]

/-- The validator passes exactly the lengths below 2^63 that meet the control-frame limits. -/
theorem headerFault_none_iff (op : BitVec 4) (fin : Bool) (n : Len) :
    headerFault buildParams op fin n = none ↔ n.toNat < 2 ^ 63 ∧ controlLimitsMet op fin n.toNat = true := by
  unfold headerFault
  split
  · simp; omega
  · rw [controlFault_none_iff]; simp; omega

/-- What ENCODE puts out: the fixed bytes, the extended length, the key, the payload. -/
theorem emitFrame_eq (h : Header) (pay : Bytes) :
    emitFrame h pay =
      [(ctlPack h (lenEnc h.payloadLength).1).1, (ctlPack h (lenEnc h.payloadLength).1).2] ++
        (lenEnc h.payloadLength).2 ++ (match h.maskKey with | some k => toLe32 k | none => []) ++
        unmask h.maskKey pay := by
  unfold emitFrame
  cases h.maskKey <;> simp [emit, unmask, keyBytesOf]

/-- All ENCODE can do when it succeeds: every check has passed, and the output is the frame. -/
theorem encodeFrame_ok {h : Header} {pay out : Bytes} (e : encodeFrame buildParams h pay = .ok out) :
    h.payloadLength.toNat < 2 ^ 63 ∧ controlLimitsMet h.opcode h.fin h.payloadLength.toNat = true ∧
      pay.length = h.payloadLength.toNat ∧ out = emitFrame h pay := by
  unfold encodeFrame at e
  split at e
  · cases e
  · rename_i hf
    split at e
    · cases e
    · cases e
      exact ⟨((headerFault_none_iff _ _ _).mp hf).1, ((headerFault_none_iff _ _ _).mp hf).2, not_not.mp ‹_›, rfl⟩

/-- Every error ENCODE can end with. -/
theorem encodeFrame_error {h : Header} {pay : Bytes} {k : ErrorKind} (e : encodeFrame buildParams h pay = .error k) :
    k = .invalidLength ∨ k = .protocolError ∨ k = .lengthMismatch := by
  unfold encodeFrame at e
  rw [headerFault_eq] at e
  split at e
  · rename_i h1
    cases e
    split at h1
    · cases h1; simp
    · split at h1
      · cases h1; simp
      · split at h1 <;> cases h1
        simp
  · split at e <;> cases e
    simp

/-- The end of an encode: the whole frame in `OUT`, or the error and nothing else. -/
theorem State.finishEncode_cases (s : State) (m : Bool) (r : Except ErrorKind Bytes) :
    (∃ k, r = .error k ∧ s.finishEncode m r = s.raise k) ∨
      ∃ out, r = .ok out ∧ s.finishEncode m r =
        State.done { s with wireOut := out, keyPhase := if m then phaseAfter s.pay.length else s.keyPhase } := by
  cases r with
  | error k => exact .inl ⟨k, rfl, rfl⟩
  | ok out => exact .inr ⟨out, rfl, rfl⟩

end Sys2Proof.Machine
end

