-- ==== Sys2Proof/Laws/Memory.lean ====
section
/-! SUPPORT. The buffers as memory (log 11): every buffer is in the canonical form whatever operation wrote it, equal
memories are equal buffers, and reading a byte is looking its address up. -/

namespace Sys2Proof.Machine

theorem cellsFrom_wf (a : Nat) (b : Bytes) : Memory.wf (cellsFrom a b) = true := by
  induction b generalizing a with
  | nil => rfl
  | cons x b ih =>
    cases b with
    | nil => rfl
    | cons y b => simpa [cellsFrom, Memory.wf] using ih (a + 1)

/-- Every buffer is in the canonical form; so every operation keeps it. -/
theorem cells_wf (b : Bytes) : Memory.wf (Memory.cells b) = true := cellsFrom_wf 0 b

/-- The append of `Emit` keeps the canonical form. -/
theorem emit_wf (out s : Bytes) : Memory.wf (Memory.cells (emit out s)) = true := cells_wf _

/-- The in-place masking of `BUF` keeps it. -/
theorem applyMask_wf (key : Key) (b : Bytes) : Memory.wf (Memory.cells (applyMask key b)) = true := cells_wf _

/-- So does the wide path. -/
theorem applyMaskWide_wf (key : Key) (b : Bytes) : Memory.wf (Memory.cells (applyMaskWide key b)) = true := cells_wf _

theorem cellsFrom_lookup (a i : Nat) (b : Bytes) : (cellsFrom a b).lookup (a + i) = b[i]? := by
  induction b generalizing a i with
  | nil => rfl
  | cons x b ih =>
    cases i with
    | zero => simp [cellsFrom]
    | succ i =>
      have h : (a + (i + 1) == a) = false := by simp
      rw [cellsFrom, List.lookup_cons, h, show a + (i + 1) = a + 1 + i by omega, ih]
      rfl

/-- Reading a byte is looking its address up; an unlisted address reads as nothing. -/
theorem readByte_eq_lookup (b : Bytes) (a : Nat) : readByte b a = (Memory.cells b).lookup a := by
  have := cellsFrom_lookup 0 a b
  rw [Nat.zero_add] at this
  exact this.symm

/-- Equal memories are equal buffers. -/
theorem cells_inj {a b : Bytes} (h : Memory.cells a = Memory.cells b) : a = b := by
  apply List.ext_getElem?
  intro i
  have := congrArg (fun m => List.lookup i m) h
  simpa [← readByte_eq_lookup, readByte] using this

/-- Every buffer of the reset state lists nothing and is in the canonical form. -/
theorem reset_memory :
    Memory.cells State.reset.wireIn = [] ∧ Memory.cells State.reset.pay = [] ∧ Memory.cells State.reset.buf = [] ∧
      Memory.cells State.reset.wireOut = [] ∧ Memory.cells State.reset.payOut = [] := ⟨rfl, rfl, rfl, rfl, rfl⟩

end Sys2Proof.Machine
end

