-- ==== Sys2Proof/Laws/PerInstr.lean ====
section
/-! SUPPORT. Per instruction: how long a row's encoding is (spec/opcode_table.json; 30_encoding.md R51, R71). -/

namespace Sys2Proof.Laws.EncodedLength

/-- The byte count of a row: 2 for a BYTE0 row, the header size `2 + E + M` of R51 for a HEADER row. -/
def rowBytes : Instr → Nat
  | .continuation _ => 2
  | .text _ => 2
  | .binary _ => 2
  | .reserved3 _ => 2
  | .reserved4 _ => 2
  | .reserved5 _ => 2
  | .reserved6 _ => 2
  | .reserved7 _ => 2
  | .close _ => 2
  | .ping _ => 2
  | .pong _ => 2
  | .reserved11 _ => 2
  | .reserved12 _ => 2
  | .reserved13 _ => 2
  | .reserved14 _ => 2
  | .reserved15 _ => 2
  | .f7u _ _ => 2
  | .f7m _ _ _ => 6
  | .f16u _ _ => 4
  | .f16m _ _ _ => 8
  | .f64u _ _ => 10
  | .f64m _ _ _ => 14

/-- The encoding of a row has the row's byte count, and bytes of the row's kind. -/
def Statement (i : Instr) : Prop :=
  (encode i).length = rowBytes i ∧ (i.kind = .byte0 → rowBytes i = 2)

theorem continuation (c : Ctl) : Statement (.continuation c) := ⟨rfl, fun _ => rfl⟩
theorem text (c : Ctl) : Statement (.text c) := ⟨rfl, fun _ => rfl⟩
theorem binary (c : Ctl) : Statement (.binary c) := ⟨rfl, fun _ => rfl⟩
theorem reserved3 (c : Ctl) : Statement (.reserved3 c) := ⟨rfl, fun _ => rfl⟩
theorem reserved4 (c : Ctl) : Statement (.reserved4 c) := ⟨rfl, fun _ => rfl⟩
theorem reserved5 (c : Ctl) : Statement (.reserved5 c) := ⟨rfl, fun _ => rfl⟩
theorem reserved6 (c : Ctl) : Statement (.reserved6 c) := ⟨rfl, fun _ => rfl⟩
theorem reserved7 (c : Ctl) : Statement (.reserved7 c) := ⟨rfl, fun _ => rfl⟩
theorem close (c : Ctl) : Statement (.close c) := ⟨rfl, fun _ => rfl⟩
theorem ping (c : Ctl) : Statement (.ping c) := ⟨rfl, fun _ => rfl⟩
theorem pong (c : Ctl) : Statement (.pong c) := ⟨rfl, fun _ => rfl⟩
theorem reserved11 (c : Ctl) : Statement (.reserved11 c) := ⟨rfl, fun _ => rfl⟩
theorem reserved12 (c : Ctl) : Statement (.reserved12 c) := ⟨rfl, fun _ => rfl⟩
theorem reserved13 (c : Ctl) : Statement (.reserved13 c) := ⟨rfl, fun _ => rfl⟩
theorem reserved14 (c : Ctl) : Statement (.reserved14 c) := ⟨rfl, fun _ => rfl⟩
theorem reserved15 (c : Ctl) : Statement (.reserved15 c) := ⟨rfl, fun _ => rfl⟩
theorem f7u (b : Byte0) (len : BitVec 7) : Statement (.f7u b len) := ⟨rfl, nofun⟩
theorem f7m (b : Byte0) (len : BitVec 7) (key : Key) : Statement (.f7m b len key) := ⟨rfl, nofun⟩
theorem f16u (b : Byte0) (len : BitVec 16) : Statement (.f16u b len) := ⟨rfl, nofun⟩
theorem f16m (b : Byte0) (len : BitVec 16) (key : Key) : Statement (.f16m b len key) := ⟨rfl, nofun⟩
theorem f64u (b : Byte0) (len : BitVec 63) : Statement (.f64u b len) := ⟨rfl, nofun⟩
theorem f64m (b : Byte0) (len : BitVec 63) (key : Key) : Statement (.f64m b len key) := ⟨rfl, nofun⟩

end Sys2Proof.Laws.EncodedLength
end

