-- ==== Sys2Proof/Laws/Step.lean ====
section
/-! SUPPORT. What `exec` and `step` call, one lemma per arm, so that no later proof unfolds either. -/

namespace Sys2Proof.Machine

/-- Every BYTE0 row means the same operation on its code. -/
theorem exec_ofOpcode (o : Opcode) (c : Ctl) (s : State) :
    exec (.ofOpcode o c) s = .next (s.finishDecode (receiveWord buildParams s.dMode s.wireIn o.code c)) := by
  cases o <;> rfl

/-- The operands of a HEADER row as the shared operation takes them. -/
theorem exec_header (i : Instr) (h : i.kind = .header) (s : State) : ∃ size form b n key,
    exec i s = .next (s.finishDecode (receiveHeader buildParams s.dMode s.wireIn size form b n key)) ∧
      key.isSome = i.maskBit := by
  cases i with
  | f7u b len => exact ⟨2, .inline, b, len.setWidth 64, none, rfl, rfl⟩
  | f7m b len key => exact ⟨6, .inline, b, len.setWidth 64, some key, rfl, rfl⟩
  | f16u b len => exact ⟨4, .ext16, b, len.setWidth 64, none, rfl, rfl⟩
  | f16m b len key => exact ⟨8, .ext16, b, len.setWidth 64, some key, rfl, rfl⟩
  | f64u b len => exact ⟨10, .ext64, b, len.setWidth 64, none, rfl, rfl⟩
  | f64m b len key => exact ⟨14, .ext64, b, len.setWidth 64, some key, rfl, rfl⟩
  | _ => cases h

/-- Every row ends a DECODE: it delivers a frame or takes an error. -/
theorem exec_finishes (i : Instr) (s : State) : ∃ r, exec i s = .next (s.finishDecode r) := by
  rcases hk : i.kind
  · obtain ⟨o, c, rfl⟩ := Instr.eq_ofOpcode_of_kind hk
    exact ⟨_, exec_ofOpcode o c s⟩
  · obtain ⟨size, form, b, n, key, e, -⟩ := exec_header i hk s
    exact ⟨_, e⟩

/-! ### `step` by the operation presented -/

theorem step_idle {s : State} (h : s.call = none) : step s = .next s := by simp [step, h]

theorem step_opcFromRaw {s : State} {n : Nat} (h : s.call = some (.opcFromRaw n)) :
    step s = .next (runOpcFromRaw n s) := by simp [step, h]

theorem step_opcToRaw {s : State} {v : Opcode} (h : s.call = some (.opcToRaw v)) :
    step s = .next (runOpcToRaw v s) := by simp [step, h]

theorem step_isControl {s : State} (h : s.call = some .isControl) : step s = .next (runIsControl s) := by
  simp [step, h]

theorem step_opcDemux {s : State} (h : s.call = some .opcDemux) : step s = .next (runOpcDemux s) := by
  simp [step, h]

theorem step_ctlPack {s : State} {sel : Sel} (h : s.call = some (.ctlPack sel)) :
    step s = .next (runCtlPack sel s) := by simp [step, h]

theorem step_ctlUnpack {s : State} {b0 b1 : Byte} (h : s.call = some (.ctlUnpack b0 b1)) :
    step s = .next (runCtlUnpack b0 b1 s) := by simp [step, h]

theorem step_hdrNew {s : State} {arg : HeaderArg} (h : s.call = some (.hdrNew arg)) :
    step s = .next (runHdrNew arg s) := by simp [step, h]

theorem step_lenClass {s : State} (h : s.call = some .lenClass) : step s = .next (runLenClass s) := by
  simp [step, h]

theorem step_lenEnc {s : State} (h : s.call = some .lenEnc) : step s = .next (runLenEnc s) := by simp [step, h]

theorem step_lenDec {s : State} {f : LenField} (h : s.call = some (.lenDec f)) :
    step s = .next (runLenDec f s) := by simp [step, h]

theorem step_keyBytes {s : State} (h : s.call = some .keyBytes) : step s = .next (runKeyBytes s) := by
  simp [step, h]

theorem step_keyFromBytes {s : State} {k0 k1 k2 k3 : Byte} (h : s.call = some (.keyFromBytes k0 k1 k2 k3)) :
    step s = .next (runKeyFromBytes k0 k1 k2 k3 s) := by simp [step, h]

theorem step_applyMask {s : State} {key : Key} (h : s.call = some (.applyMask key)) :
    step s = .next (runApplyMask key s) := by simp [step, h]

theorem step_applyMaskWide {s : State} {key : Key} (h : s.call = some (.applyMaskWide key)) :
    step s = .next (runApplyMaskWide key s) := by simp [step, h]

theorem step_encode {s : State} (h : s.call = some .encode) : step s = .next (runEncode s) := by simp [step, h]

theorem step_encodeMsg {s : State} {o : BitVec 4} {f : Bool} {k : Option Key}
    (h : s.call = some (.encodeMsg o f k)) : step s = .next (runEncodeMsg o f k s) := by simp [step, h]

/-- The machine answers a next state for every operation but DECODE by its definition, and for DECODE through a row. -/
theorem step_decode_cases {s : State} (h : s.call = some .decode) :
    (∃ i, decodeInstr s.wireIn = .ok i ∧ step s = exec i s) ∨
      (∃ e, decodeInstr s.wireIn = .error e ∧ step s = .next (s.raise .incomplete)) := by
  cases hd : decodeInstr s.wireIn with
  | ok i => exact .inl ⟨i, rfl, by simp [step, h, hd]⟩
  | error e => exact .inr ⟨e, rfl, by simp [step, h, hd]⟩

end Sys2Proof.Machine
end

