-- ==== Sys2Proof/Tests/Slice0.lean ====
section
/-! SUPPORT. Tests. Expected values are those of spec/95_test_vectors.md (its section is named at each group) or are worked
out by hand from the rule named. The last part shows, for each statement with hypotheses, a state and operands that meet them. -/

namespace Sys2Proof.Tests

open Sys2Proof.Machine

/-! ### Helpers: one step on a small state -/

/-- The state a step leaves, if it answers one. -/
def after (s : State) : Option State :=
  match step s with
  | .next t => some t
  | .fault _ => none
  | .refused _ => none

/-- The state an instruction leaves, if it answers one. -/
def afterExec (i : Instr) (s : State) : Option State :=
  match exec i s with
  | .next t => some t
  | .fault _ => none
  | .refused _ => none

/-- One operation on the reset state with header registers `h`. -/
def run (c : Call) (h : Header) : Option State := after (State.reset.presentRegisters c h)

/-- What a DECODE delivers: result, header, payload, count. -/
def decoded (m : Mode) (inp : Bytes) : Option (Option Result × Header × Bytes × Nat) :=
  (after (State.reset.presentDecode m inp)).map fun t => (t.result, t.h, t.payOut, t.consumed)

/-- The result of a DECODE alone. -/
def decodeResult (m : Mode) (inp : Bytes) : Option (Option Result) :=
  (after (State.reset.presentDecode m inp)).map fun t => t.result

/-- What an ENCODE leaves: result, `OUT`, `PAY`. -/
def encoded (h : Header) (pay : Bytes) : Option (Option Result × Bytes × Bytes) :=
  (after (State.reset.presentEncode h pay)).map fun t => (t.result, t.wireOut, t.pay)

/-- What an instruction delivers on a frame: result, opcode, length, payload, count. -/
def ran (i : Instr) (m : Mode) (inp : Bytes) : Option (Option Result × BitVec 4 × Len × Bytes × Nat) :=
  (afterExec i (State.reset.presentDecode m inp)).map fun t =>
    (t.result, t.h.opcode, t.h.payloadLength, t.payOut, t.consumed)

/-- A header with the defaults of 30_encoding.md R69. -/
def hdr (fin : Bool) (opcode : BitVec 4) (key : Option Key) (n : Len) : Header :=
  ⟨fin, false, false, false, opcode, key, n⟩

/-- The operands of HDR_NEW with the same defaults. -/
def arg (fin : Bool) (opcode : BitVec 4) (masked : Bool) (key : Key) (n : Len) : HeaderArg :=
  ⟨fin, false, false, false, opcode, masked, key, n⟩

/-- Fixed header bytes with FIN set, reserved bits 0. -/
def ctl (fin masked : Bool) (sel : Sel) : Ctl := ⟨fin, false, false, false, masked, sel⟩

/-! ### WellFormed: the smoke test, an ill-formed term for the check of each row that has one (30_encoding.md R51) -/

theorem test_wf_f7u_refuses_126 : (Instr.f7u ⟨true, false, false, false, 1⟩ 126).wf = false := by decide
theorem test_wf_f7u_takes_125 : (Instr.f7u ⟨true, false, false, false, 1⟩ 125).wf = true := by decide
theorem test_wf_f7m_refuses_127 : (Instr.f7m ⟨true, false, false, false, 1⟩ 127 0).wf = false := by decide
theorem test_wf_f7m_takes_125 : (Instr.f7m ⟨true, false, false, false, 1⟩ 125 0).wf = true := by decide

/-! ### Decoding: every row from a word written out from its encoding in spec/opcode_table.json -/

theorem test_decode_continuation :
    decodeInstr [0b00000000#8, 0b01111101#8] = .ok (.continuation (ctl false false 125)) := by decide
theorem test_decode_text : decodeInstr [0b10000001#8, 0b00000011#8] = .ok (.text (ctl true false 3)) := by decide
theorem test_decode_binary :
    decodeInstr [0b01010010#8, 0b00000001#8] = .ok (.binary ⟨false, true, false, true, false, 1⟩) := by decide
theorem test_decode_reserved3 : decodeInstr [0b10000011#8, 0b00000001#8] = .ok (.reserved3 (ctl true false 1)) := by decide
theorem test_decode_reserved4 : decodeInstr [0b00000100#8, 0b00000010#8] = .ok (.reserved4 (ctl false false 2)) := by decide
theorem test_decode_reserved5 :
    decodeInstr [0b11000101#8, 0b00000000#8] = .ok (.reserved5 ⟨true, true, false, false, false, 0⟩) := by decide
theorem test_decode_reserved6 :
    decodeInstr [0b00100110#8, 0b00000000#8] = .ok (.reserved6 ⟨false, false, true, false, false, 0⟩) := by decide
theorem test_decode_reserved7 :
    decodeInstr [0b00010111#8, 0b01000000#8] = .ok (.reserved7 ⟨false, false, false, true, false, 64⟩) := by decide
theorem test_decode_close : decodeInstr [0b10001000#8, 0b00000010#8] = .ok (.close (ctl true false 2)) := by decide
theorem test_decode_ping : decodeInstr [0b10001001#8, 0b00000101#8] = .ok (.ping (ctl true false 5)) := by decide
theorem test_decode_pong : decodeInstr [0b00001010#8, 0b00000000#8] = .ok (.pong (ctl false false 0)) := by decide
theorem test_decode_reserved11 : decodeInstr [0b00001011#8, 0b00000000#8] = .ok (.reserved11 (ctl false false 0)) := by decide
theorem test_decode_reserved12 : decodeInstr [0b10001100#8, 0b00000111#8] = .ok (.reserved12 (ctl true false 7)) := by decide
theorem test_decode_reserved13 : decodeInstr [0b10001101#8, 0b00001000#8] = .ok (.reserved13 (ctl true false 8)) := by decide
theorem test_decode_reserved14 : decodeInstr [0b00001110#8, 0b00000000#8] = .ok (.reserved14 (ctl false false 0)) := by decide
/-- A masked 2-byte prefix: no key yet, so the BYTE0 row. -/
theorem test_decode_reserved15 :
    decodeInstr [0b11111111#8, 0b10000000#8] = .ok (.reserved15 ⟨true, true, true, true, true, 0⟩) := by decide
theorem test_decode_f7u : decodeRow .header [0b10000001#8, 0b01111101#8] = .ok (.f7u ⟨true, false, false, false, 1⟩ 125) := by
  decide
theorem test_decode_f7m :
    decodeInstr [0b10000001#8, 0b10000011#8, 0x61#8, 0x32#8, 0x34#8, 0x63#8] =
      .ok (.f7m ⟨true, false, false, false, 1⟩ 3 0x63343261) := by decide
theorem test_decode_f16u :
    decodeInstr [0b10001011#8, 0b01111110#8, 0b00000000#8, 0b11001000#8] =
      .ok (.f16u ⟨true, false, false, false, 11⟩ 200) := by decide
theorem test_decode_f16m :
    decodeInstr [0b10000010#8, 0b11111110#8, 0x01#8, 0x02#8, 0x78#8, 0x56#8, 0x34#8, 0x12#8] =
      .ok (.f16m ⟨true, false, false, false, 2⟩ 258 0x12345678) := by decide
theorem test_decode_f64u :
    decodeInstr [0b10000010#8, 0b01111111#8, 0x7F#8, 0xFF#8, 0xFF#8, 0xFF#8, 0xFF#8, 0xFF#8, 0xFF#8, 0xFE#8] =
      .ok (.f64u ⟨true, false, false, false, 2⟩ 0x7FFFFFFFFFFFFFFE) := by decide
theorem test_decode_f64m :
    decodeInstr [0b00000010#8, 0b11111111#8, 0#8, 0#8, 0#8, 0#8, 0#8, 1#8, 0#8, 2#8, 0xEF#8, 0xBE#8, 0xAD#8, 0xDE#8] =
      .ok (.f64m ⟨false, false, false, false, 2⟩ 65538 0xDEADBEEF) := by decide
theorem test_decode_reserved_top_bit :
    decodeRow .header [0x82#8, 0x7F#8, 0x80#8, 0#8, 0#8, 0#8, 0#8, 0#8, 0#8, 0#8] = .error .reservedTopBit := by decide
theorem test_decode_one_byte : decodeInstr [0x81#8] = .error .fixedHeaderMissing := by decide
/-- The table's numbering: byte 0 the high byte of the first word, later words from bit 16 on. -/
theorem test_decodeTableWord : decodeTableWord 16 0x8902 = some (.ping (ctl true false 2)) ∧
    decodeTableWord 48 0x633461328183 = some (.f7m ⟨true, false, false, false, 1⟩ 3 0x34633261) := by decide

/-! ### The rows: one instruction on one frame (95_test_vectors.md 2.5; Reserved rows by hand from 40_header_model.md) -/

theorem test_exec_continuation :
    ran (.continuation (ctl true true 0)) .expectMasked [0x80#8, 0x80#8, 0x61#8, 0x32#8, 0x34#8, 0x63#8] =
      some (some .ok, 0, 0, [], 6) := by decide
theorem test_exec_text :
    ran (.text (ctl true true 3)) .expectMasked
        [0x81#8, 0x83#8, 0x61#8, 0x32#8, 0x34#8, 0x63#8, 0x29#8, 0x5B#8, 0x15#8] =
      some (some .ok, 1, 3, [0x48#8, 0x69#8, 0x21#8], 9) := by decide
theorem test_exec_binary :
    ran (.binary (ctl true false 127)) .expectUnmasked
        [0x82#8, 0x7F#8, 0#8, 0#8, 0#8, 0#8, 0#8, 0#8, 0#8, 1#8, 0x55#8] =
      some (some .ok, 2, 1, [0x55#8], 11) := by decide
theorem test_exec_reserved3 : ran (.reserved3 (ctl false false 1)) .expectUnmasked [0x03#8, 0x01#8, 0x55#8, 0x66#8] =
    some (some .ok, 3, 1, [0x55#8], 3) := by decide
theorem test_exec_reserved4 : ran (.reserved4 (ctl false false 1)) .expectUnmasked [0x04#8, 0x01#8, 0x55#8] =
    some (some .ok, 4, 1, [0x55#8], 3) := by decide
theorem test_exec_reserved5 : ran (.reserved5 (ctl true false 2)) .expectUnmasked [0x85#8, 0x02#8, 0x55#8] =
    some (some (.err .incomplete), 0, 0, [], 0) := by decide
theorem test_exec_reserved6 : ran (.reserved6 (ctl true false 0)) .expectUnmasked [0x86#8, 0x00#8] =
    some (some .ok, 6, 0, [], 2) := by decide
theorem test_exec_reserved7 : ran (.reserved7 (ctl true false 0)) .expectMasked [0x87#8, 0x00#8] =
    some (some (.err .protocolError), 0, 0, [], 0) := by decide
theorem test_exec_close :
    ran (.close (ctl true true 2)) .expectMasked [0x88#8, 0x82#8, 0#8, 0#8, 0#8, 0#8, 0x03#8, 0xE8#8] =
      some (some .ok, 8, 2, [0x03#8, 0xE8#8], 8) := by decide
theorem test_exec_ping :
    ran (.ping (ctl true true 2)) .expectMasked [0x89#8, 0x82#8, 0xD4#8, 0xC3#8, 0xB2#8, 0xA1#8, 0xBB#8, 0xA8#8] =
      some (some .ok, 9, 2, [0x6F#8, 0x6B#8], 8) := by decide
theorem test_exec_pong_fin0 : ran (.pong (ctl false false 0)) .expectUnmasked [0x0A#8, 0x00#8] =
    some (some (.err .protocolError), 0, 0, [], 0) := by decide
theorem test_exec_reserved11 : ran (.reserved11 (ctl false false 0)) .expectUnmasked [0x0B#8, 0x00#8] =
    some (some .ok, 11, 0, [], 2) := by decide
theorem test_exec_reserved12 : ran (.reserved12 (ctl false false 1)) .expectUnmasked [0x0C#8, 0x01#8, 0x07#8] =
    some (some .ok, 12, 1, [0x07#8], 3) := by decide
theorem test_exec_reserved13 : ran (.reserved13 (ctl false false 126)) .expectUnmasked [0x0D#8, 0x7E#8, 0x00#8] =
    some (some (.err .incomplete), 0, 0, [], 0) := by decide
theorem test_exec_reserved14 : ran (.reserved14 (ctl false false 0)) .expectUnmasked [0x0E#8, 0x00#8] =
    some (some .ok, 14, 0, [], 2) := by decide
theorem test_exec_reserved15 :
    ran (.reserved15 ⟨true, true, true, true, true, 0⟩) .expectMasked [0xFF#8, 0x80#8, 0xEF#8, 0xBE#8, 0xAD#8, 0xDE#8] =
      some (some .ok, 15, 0, [], 6) := by decide
theorem test_exec_f7u : ran (.f7u ⟨true, false, false, false, 1⟩ 3) .expectUnmasked [0x81#8, 0x03#8, 0x48#8, 0x69#8, 0x21#8] =
    some (some .ok, 1, 3, [0x48#8, 0x69#8, 0x21#8], 5) := by decide
theorem test_exec_f7m :
    ran (.f7m ⟨true, false, false, false, 1⟩ 3 0x3439616C) .expectMasked
        [0x81#8, 0x83#8, 0x6C#8, 0x61#8, 0x39#8, 0x34#8, 0x24#8, 0x08#8, 0x18#8] =
      some (some .ok, 1, 3, [0x48#8, 0x69#8, 0x21#8], 9) := by decide
theorem test_exec_f16u :
    ran (.f16u ⟨true, false, false, false, 2⟩ 3) .expectUnmasked [0x82#8, 0x7E#8, 0#8, 3#8, 1#8, 2#8, 3#8] =
      some (some .ok, 2, 3, [1#8, 2#8, 3#8], 7) := by decide
/-- Key byte 0 is masked into payload byte 0 only (by hand, 42_masking.md R122). -/
theorem test_exec_f16m :
    ran (.f16m ⟨true, false, false, false, 2⟩ 5 0x000000FF) .expectMasked
        [0x82#8, 0xFE#8, 0#8, 5#8, 0xFF#8, 0#8, 0#8, 0#8, 0xEE#8, 0x22#8, 0x33#8, 0x44#8, 0xAA#8] =
      some (some .ok, 2, 5, [0x11#8, 0x22#8, 0x33#8, 0x44#8, 0x55#8], 13) := by decide
theorem test_exec_f64u_long_control :
    ran (.f64u ⟨true, false, false, false, 8⟩ 126) .expectUnmasked
        [0x88#8, 0x7F#8, 0#8, 0#8, 0#8, 0#8, 0#8, 0#8, 0#8, 0x7E#8] =
      some (some (.err .invalidLength), 0, 0, [], 0) := by decide
theorem test_exec_f64m :
    ran (.f64m ⟨true, false, false, false, 2⟩ 2 0xFFFFFFFF) .expectMasked
        [0x82#8, 0xFF#8, 0#8, 0#8, 0#8, 0#8, 0#8, 0#8, 0#8, 2#8, 0xFF#8, 0xFF#8, 0xFF#8, 0xFF#8, 0x93#8, 0x90#8] =
      some (some .ok, 2, 2, [0x6C#8, 0x6F#8], 16) := by decide

/-! ### DECODE (95_test_vectors.md 2.5, 2.6) -/

theorem test_step_decode_e1 :
    decoded .expectMasked [0x81#8, 0x83#8, 0x61#8, 0x32#8, 0x34#8, 0x63#8, 0x29#8, 0x5B#8, 0x15#8] =
      some (some .ok, hdr true 1 (some 0x63343261) 3, [0x48#8, 0x69#8, 0x21#8], 9) := by decide
theorem test_step_decode_rsv :
    decoded .expectUnmasked [0x52#8, 0x01#8, 0x7F#8] =
      some (some .ok, ⟨false, true, false, true, 2, none, 1⟩, [0x7F#8], 3) := by decide
theorem test_step_decode_trailing :
    decoded .expectUnmasked [0x81#8, 0x02#8, 0x48#8, 0x69#8, 0x89#8, 0x00#8] =
      some (some .ok, hdr true 1 none 2, [0x48#8, 0x69#8], 4) := by decide
theorem test_decode_incomplete :
    decodeResult .expectMasked [] = some (some (.err .incomplete)) ∧
    decodeResult .expectMasked [0x81#8] = some (some (.err .incomplete)) ∧
    decodeResult .expectMasked [0x81#8, 0xFE#8, 0x00#8] = some (some (.err .incomplete)) ∧
    decodeResult .expectMasked [0x81#8, 0x85#8, 0x37#8, 0xFA#8, 0x21#8] = some (some (.err .incomplete)) ∧
    decodeResult .expectUnmasked [0x82#8, 0x7F#8, 0x7F#8, 0xFF#8, 0xFF#8, 0xFF#8, 0xFF#8, 0xFF#8, 0xFF#8, 0xFF#8] =
      some (some (.err .incomplete)) := by decide
theorem test_decode_invalid_length :
    decodeResult .expectUnmasked [0x82#8, 0x7F#8, 0x80#8, 0#8, 0#8, 0#8, 0#8, 0#8, 0#8, 0#8] =
      some (some (.err .invalidLength)) ∧
    decodeResult .expectUnmasked [0x89#8, 0x7E#8, 0x00#8, 0x7E#8] = some (some (.err .invalidLength)) ∧
    decodeResult .expectUnmasked [0x09#8, 0x7E#8, 0x00#8, 0x7E#8] = some (some (.err .invalidLength)) := by decide
theorem test_decode_protocol_error :
    decodeResult .expectMasked [0x81#8, 0x03#8] = some (some (.err .protocolError)) ∧
    decodeResult .expectUnmasked [0x81#8, 0x83#8] = some (some (.err .protocolError)) ∧
    decodeResult .expectMasked [0x08#8, 0x80#8] = some (some (.err .protocolError)) ∧
    decodeResult .expectUnmasked [0x09#8, 0x80#8] = some (some (.err .protocolError)) := by decide

/-! ### DECODE under the other value of each named parameter (95_test_vectors.md 2.7) -/

theorem test_param_check_control_fin :
    (decodeFrame { Params.standard with checkControlFin := false } .expectUnmasked [0x09#8, 0x00#8]).toOption =
      some ⟨hdr false 9 none 0, [], 2⟩ := by decide
theorem test_param_masked_when_unmasked_expected :
    ((decodeFrame { Params.standard with rejectMaskedWhenUnmaskedExpected := false } .expectUnmasked
      [0x81#8, 0x83#8, 0x61#8, 0x32#8, 0x34#8, 0x63#8, 0x29#8, 0x5B#8, 0x15#8]).toOption.map fun d =>
        (d.payload, d.consumed)) = some ([0x48#8, 0x69#8, 0x21#8], 9) := by decide
theorem test_param_minimal_length :
    decodeFrame { Params.standard with requireMinimalLength := true } .expectUnmasked
      [0x82#8, 0x7E#8, 0x00#8, 0x03#8, 0x01#8, 0x02#8, 0x03#8] = .error .invalidLength := by rfl
theorem test_param_control_set :
    decodeFrame { Params.standard with controlSet := .bit3 } .expectUnmasked [0x0B#8, 0x00#8] =
      .error .protocolError ∧
    decodeFrame { Params.standard with controlSet := .bit3 } .expectUnmasked [0x8B#8, 0x7E#8, 0x00#8, 0xC8#8] =
      .error .invalidLength := ⟨rfl, rfl⟩

/-! ### ENCODE and ENCODE_MSG (95_test_vectors.md 2.4) -/

theorem test_encode_masked :
    encoded (hdr true 1 (some 0x3D21FA37) 5) [0x48#8, 0x65#8, 0x6C#8, 0x6C#8, 0x6F#8] =
      some (some .ok, [0x81#8, 0x85#8, 0x37#8, 0xFA#8, 0x21#8, 0x3D#8, 0x7F#8, 0x9F#8, 0x4D#8, 0x51#8, 0x58#8],
        [0x48#8, 0x65#8, 0x6C#8, 0x6C#8, 0x6F#8]) := by decide
/-- A key supplied with `masked = 0` is ignored (10_state.md R13). -/
theorem test_encode_key_ignored :
    (after (State.reset.presentEncodeArg (arg true 1 false 0xDEADBEEF 2) [0x48#8, 0x69#8])).map (fun t => (t.result, t.wireOut)) =
      some (some .ok, [0x81#8, 0x02#8, 0x48#8, 0x69#8]) := by decide
theorem test_encode_errors :
    encoded (hdr true 1 none 4) [0x61#8, 0x62#8, 0x63#8] =
      some (some (.err .lengthMismatch), [], [0x61#8, 0x62#8, 0x63#8]) ∧
    encoded (hdr true 9 none 126) [0x61#8] = some (some (.err .invalidLength), [], [0x61#8]) ∧
    encoded (hdr false 9 none 0) [] = some (some (.err .protocolError), [], []) := by decide
theorem test_encode_length_limit :
    encoded (hdr true 2 none 0x8000000000000000) [] = some (some (.err .invalidLength), [], []) ∧
    encoded (hdr true 2 none 0x7FFFFFFFFFFFFFFF) [] = some (some (.err .lengthMismatch), [], []) := by decide
theorem test_encodeMsg :
    ((after (State.reset.presentEncodeMsg 1 true (some 0x63343261) [0x48#8, 0x69#8, 0x21#8])).map fun t =>
      (t.result, t.wireOut)) =
      some (some .ok, [0x81#8, 0x83#8, 0x61#8, 0x32#8, 0x34#8, 0x63#8, 0x29#8, 0x5B#8, 0x15#8]) ∧
    ((after (State.reset.presentEncodeMsg 10 false none [])).map fun t => t.result) =
      some (some (.err .protocolError)) := by decide

/-! ### The header model (95_test_vectors.md 2.1) -/

theorem test_opcFromRaw : (run (.opcFromRaw 15) .reset).map (fun t => (t.result, t.h.opcode)) = some (some .ok, 15) ∧
    (run (.opcFromRaw 16) .reset).map (fun t => t.result) = some (some (.err .invalidOpcode)) := by decide
theorem test_opcToRaw : (run (.opcToRaw .pong) .reset).map (fun t => t.ports.rawCode) = some 10 := by decide
theorem test_isControl : (run .isControl (hdr true 9 none 0)).map (fun t => t.ports.control) = some true ∧
    (run .isControl (hdr true 11 none 0)).map (fun t => t.ports.control) = some false := by decide
theorem test_opcDemux : (run .opcDemux (hdr true 8 none 0)).map (fun t => (t.ports.variant, t.ports.cls)) =
    some (.close, .control) ∧
    (run .opcDemux (hdr true 13 none 0)).map (fun t => (t.ports.variant, t.ports.cls)) =
      some (.reserved13, .reserved) := by decide
theorem test_ctlPack : (run (.ctlPack 127) ⟨true, false, false, true, 2, some 0, 0⟩).map (fun t =>
    (t.ports.byte0, t.ports.byte1)) = some (0x92#8, 0xFF#8) := by decide
theorem test_ctlUnpack : (run (.ctlUnpack 0xC1 0x7D) .reset).map (fun t => (t.h, t.ports.sel)) =
    some (⟨true, true, false, false, 1, none, 0⟩, 125) := by decide
theorem test_hdrNew_drops_key : (run (.hdrNew (arg true 1 false 0xDEADBEEF 2)) .reset).map
    (fun t => (t.result, t.h)) = some (some .ok, hdr true 1 none 2) := by decide
theorem test_hdrNew_v2_before_v3 : (run (.hdrNew (arg false 8 false 0 126)) .reset).map (fun t => (t.result, t.h)) =
    some (some (.err .invalidLength), .reset) := by decide

/-! ### The length coder (41_length_coder.md R114; 95_test_vectors.md 2.2) -/

theorem test_lenClass : (run .lenClass (hdr true 2 none 125)).map (fun t => t.ports.lenClass) = some .inline ∧
    (run .lenClass (hdr true 2 none 126)).map (fun t => t.ports.lenClass) = some .ext16 ∧
    (run .lenClass (hdr true 2 none 65536)).map (fun t => t.ports.lenClass) = some .ext64 := by decide
theorem test_lenEnc : (run .lenEnc (hdr true 2 none 65535)).map (fun t => (t.ports.sel, t.ports.ext)) =
    some (126, [0xFF#8, 0xFF#8]) ∧
    (run .lenEnc (hdr true 2 none 65536)).map (fun t => (t.ports.sel, t.ports.ext)) =
      some (127, [0#8, 0#8, 0#8, 0#8, 0#8, 1#8, 0#8, 0#8]) := by decide
theorem test_lenDec : (run (.lenDec (.ext16 0x00 0x7E)) .reset).map (fun t => t.h.payloadLength) = some 126 ∧
    (run (.lenDec (.ext64 0 0 0 1 0 0 0 0)) .reset).map (fun t => t.h.payloadLength) = some 4294967296 := by decide
theorem test_lenDec_top_bit : (run (.lenDec (.ext64 0x80 0 0 0 0 0 0 5)) .reset).map (fun t => t.result) =
    some (some (.err .invalidLength)) := by decide

/-! ### The masking pipeline (95_test_vectors.md 2.3, P7) -/

theorem test_keyBytes : (run .keyBytes (hdr true 1 (some 0x63343261) 0)).map (fun t => t.ports.keyBytes) =
    some [0x61#8, 0x32#8, 0x34#8, 0x63#8] := by decide
theorem test_keyFromBytes : (run (.keyFromBytes 0x78 0x56 0x34 0x12) .reset).map (fun t => t.h.maskKey) =
    some (some 0x12345678) := by decide
theorem test_applyMask : ((after (State.reset.presentApplyMask 0x12345678 [0#8, 1#8, 2#8, 3#8, 4#8, 5#8, 6#8])).map fun t =>
    t.buf) = some [0x78#8, 0x57#8, 0x36#8, 0x11#8, 0x7C#8, 0x53#8, 0x32#8] := by decide
/-- The row of length 15: chunks of 8 and 4 bytes, then three bytes. -/
theorem test_applyMaskWide : applyMaskWide 0x12345678 [0#8, 1#8, 2#8, 3#8, 4#8, 5#8, 6#8, 7#8, 8#8, 9#8, 10#8, 11#8,
      12#8, 13#8, 14#8] =
    [0x78#8, 0x57#8, 0x36#8, 0x11#8, 0x7C#8, 0x53#8, 0x32#8, 0x15#8, 0x70#8, 0x5F#8, 0x3E#8, 0x19#8, 0x74#8, 0x5B#8,
      0x3A#8] := by decide
theorem test_rotKey : rotKey 0x12345678 1 = 0x78123456 ∧ rotKey 0x12345678 3 = 0x34567812 := by decide

/-! ### Reset, idle, and the fetch word -/

theorem test_reset_idle : State.reset.call = none ∧ State.reset.result = none := ⟨rfl, rfl⟩
theorem test_fetchWord : (after (State.reset.withFetchWord 16 0x8100)).map (fun t => (t.result, t.h.opcode, t.consumed)) =
    some (some .ok, 1, 2) := by rfl
theorem test_fetchWord_f64m :
    (after (State.reset.withFetchWord 112 0x00FF)).map (fun t => (t.result, t.h.masked, t.consumed)) =
      some (some .ok, true, 14) := by rfl

/-! ### The caller's loop on P2 and on P4 (95_test_vectors.md 3) -/

theorem test_loop_p2 :
    (decodeLoop buildParams .expectUnmasked 4
      [0x01#8, 0x03#8, 0x48#8, 0x65#8, 0x6C#8, 0x89#8, 0x00#8, 0x80#8, 0x02#8, 0x6C#8, 0x6F#8]) =
      ([(hdr false 1 none 3, [0x48#8, 0x65#8, 0x6C#8]), (hdr true 9 none 0, []), (hdr true 0 none 2, [0x6C#8, 0x6F#8])],
        .waiting []) := by decide
theorem test_loop_p4 :
    (decodeLoop buildParams .expectMasked 4
      [0x81#8, 0x85#8, 0x37#8, 0xFA#8, 0x21#8, 0x3D#8, 0x7F#8, 0x9F#8, 0x4D#8, 0x51#8, 0x58#8, 0x89#8, 0x00#8, 0x81#8,
        0x00#8]).2 = .stopped .protocolError [0x89#8, 0x00#8, 0x81#8, 0x00#8] := by decide

/-! ### Witnesses: for every statement with hypotheses, a state and operands that meet them together, clause by clause -/

/-- A DECODE of these bytes, about to be made. -/
def dec (m : Mode) (inp : Bytes) : State := State.reset.presentDecode m inp

/-- An ENCODE of these, about to be made. -/
def enc (h : Header) (pay : Bytes) : State := State.reset.presentEncode h pay

/-- A register-only operation, about to be made. -/
def op (c : Call) : State := State.reset.presentRegisters c .reset

/-- A masked frame with a whole header and payload. -/
def hi : Bytes := [0x81#8, 0x83#8, 0x61#8, 0x32#8, 0x34#8, 0x63#8, 0x29#8, 0x5B#8, 0x15#8]

/-- A masked Binary frame in the 64-bit form, one payload byte. -/
def long : Bytes := [0x02#8, 0xFF#8, 0#8, 0#8, 0#8, 0#8, 0#8, 0#8, 0#8, 1#8, 1#8, 2#8, 3#8, 4#8, 0x54#8]

/-- `n` zero bytes. -/
def zeros (n : Nat) : Bytes := List.replicate n 0

theorem zeros_length (n : Nat) : (zeros n).length = n := List.length_replicate

theorem test_witness_EveryRowDecodesFromItsEncoding :
    (Instr.f7m ⟨true, false, false, false, 9⟩ 125 0xFFFFFFFF).wf = true := by decide

theorem test_witness_DecodedRowSpellsItsBytes :
    decodeRow .byte0 [0xFF#8, 0xFF#8, 1#8] = .ok (.reserved15 ⟨true, true, true, true, true, 127⟩) ∧
    decodeRow .header [0xFF#8, 0x7E#8, 1#8, 2#8, 3#8] = .ok (.f16u ⟨true, true, true, true, 15⟩ 258) := by decide

theorem test_witness_StepRunsTheDecodedRow :
    (dec .expectMasked hi).call = some .decode ∧
    decodeInstr (dec .expectMasked hi).wireIn = .ok (.f7m ⟨true, false, false, false, 1⟩ 3 0x63343261) := by decide

/-- Both rows of one frame. -/
theorem test_witness_StepIsExecOfEitherRow :
    (dec .expectUnmasked [0x81#8, 0x00#8]).call = some .decode ∧
    decodeRow .byte0 (dec .expectUnmasked [0x81#8, 0x00#8]).wireIn = .ok (.text (ctl true false 0)) ∧
    decodeRow .header (dec .expectUnmasked [0x81#8, 0x00#8]).wireIn = .ok (.f7u ⟨true, false, false, false, 1⟩ 0) := by
  decide

/-- Delivery, and an error. -/
theorem test_witness_StepDecodeIsDecodeFrame :
    (dec .expectMasked hi).call = some .decode ∧
    (∃ d, decodeFrame buildParams (dec .expectMasked hi).dMode (dec .expectMasked hi).wireIn = .ok d) ∧
    decodeFrame buildParams .expectUnmasked (dec .expectMasked hi).wireIn = .error .protocolError := ⟨rfl, ⟨_, rfl⟩, rfl⟩

theorem test_witness_EveryStepCompletes : (op .lenEnc).call ≠ none := by decide

theorem test_witness_IdleStepChangesNothing : State.reset.call = none := rfl

theorem test_witness_DataRowsComplete :
    (dec .expectMasked long).dMode = modeOf (ctl false true 127).masked ∧
    wholeFrame (ctl false true 127) (dec .expectMasked long).wireIn = true := by decide

theorem test_witness_ReservedRowsComplete :
    (dec .expectUnmasked [0x0B#8, 0x7E#8, 0#8, 1#8, 9#8]).dMode = modeOf (ctl false false 126).masked ∧
    wholeFrame (ctl false false 126) (dec .expectUnmasked [0x0B#8, 0x7E#8, 0#8, 1#8, 9#8]).wireIn = true := by decide

/-- A control frame of exactly 125 bytes. -/
theorem test_witness_ControlRowsComplete :
    let s := dec .expectUnmasked ([0x89#8, 0x7D#8] ++ zeros 125)
    s.dMode = modeOf (ctl true false 125).masked ∧ wholeFrame (ctl true false 125) s.wireIn = true ∧
      (ctl true false 125).fin = true ∧ declaredLength (ctl true false 125).sel s.wireIn ≤ 125 :=
  ⟨rfl, by simp [dec, State.presentDecode, wholeFrame, ctl, headerSize, extSize, declaredLength, zeros_length], rfl,
    Nat.le_refl 125⟩

/-- The three unmasked forms, each at the largest length its clause takes of a Binary frame. -/
theorem test_witness_UnmaskedFormatRowsComplete :
    let b : Byte0 := ⟨false, false, false, false, 2⟩
    let s := fun n => dec .expectUnmasked (zeros n)
    (s 0).dMode = .expectUnmasked ∧
    (controlLimitsMet b.opcode b.fin (127 : BitVec 7).toNat = true ∧ 2 + (127 : BitVec 7).toNat ≤ (s 129).wireIn.length) ∧
    (controlLimitsMet b.opcode b.fin (65535 : BitVec 16).toNat = true ∧
      4 + (65535 : BitVec 16).toNat ≤ (s 65539).wireIn.length) ∧
    (controlLimitsMet b.opcode b.fin (0x7FFFFFFFFFFFFFFF : BitVec 63).toNat = true ∧
      10 + (0x7FFFFFFFFFFFFFFF : BitVec 63).toNat ≤ (s (10 + 0x7FFFFFFFFFFFFFFF)).wireIn.length) := by
  refine ⟨rfl, ⟨rfl, ?_⟩, ⟨rfl, ?_⟩, ⟨rfl, ?_⟩⟩ <;>
    simp [dec, State.presentDecode, zeros_length]

/-- The three masked forms of a control frame at its limit. -/
theorem test_witness_MaskedFormatRowsComplete :
    let b : Byte0 := ⟨true, false, false, false, 8⟩
    let s := fun n => dec .expectMasked (zeros n)
    (s 0).dMode = .expectMasked ∧
    (controlLimitsMet b.opcode b.fin (125 : BitVec 7).toNat = true ∧ 6 + (125 : BitVec 7).toNat ≤ (s 131).wireIn.length) ∧
    (controlLimitsMet b.opcode b.fin (125 : BitVec 16).toNat = true ∧ 8 + (125 : BitVec 16).toNat ≤ (s 133).wireIn.length) ∧
    (controlLimitsMet b.opcode b.fin (125 : BitVec 63).toNat = true ∧
      14 + (125 : BitVec 63).toNat ≤ (s 139).wireIn.length) := by
  refine ⟨rfl, ⟨rfl, ?_⟩, ⟨rfl, ?_⟩, ⟨rfl, ?_⟩⟩ <;>
    simp [dec, State.presentDecode, zeros_length]

/-- A row that delivers and one that raises. -/
theorem test_witness_RowsLeaveTheRestUnchanged :
    (∃ t, exec (.text (ctl true true 3)) (dec .expectMasked hi) = .next t ∧ t.result = some .ok) ∧
    (∃ t, exec (.text (ctl true true 3)) (dec .expectUnmasked hi) = .next t ∧ t.result = some (.err .protocolError)) :=
  ⟨⟨_, rfl, rfl⟩, ⟨_, rfl, rfl⟩⟩

theorem test_witness_ModeCheckRefusesFirst :
    (dec .expectUnmasked hi).dMode ≠ modeOf (Instr.f7m ⟨true, false, false, false, 1⟩ 3 0x63343261).maskBit ∧
    (dec .expectMasked hi).dMode ≠ modeOf (Instr.close (ctl false false 127)).maskBit ∧
    (dec .expectMasked [0x81#8, 0x03#8]).wireIn = 0x81#8 :: 0x03#8 :: [] ∧
    (dec .expectMasked [0x81#8, 0x03#8]).dMode ≠ modeOf ((0x03#8 : Byte).getLsbD 7) := by decide

/-- 126 is the first length refused. -/
theorem test_witness_LongControlFrameIsInvalidLength :
    let s := dec .expectUnmasked [0x89#8, 0x7E#8, 0x00#8, 0x7E#8]
    s.call = some .decode ∧ s.dMode = modeOf (ctl true false 126).masked ∧ 2 + extSize 126 ≤ s.wireIn.length ∧
      125 < declaredLength 126 s.wireIn := by decide

/-- 125 is the last length at which FIN decides. -/
theorem test_witness_FragmentedControlFrameIsProtocolError :
    let s := dec .expectUnmasked [0x09#8, 0x7E#8, 0x00#8, 0x7D#8]
    (s.dMode = modeOf (ctl false false 126).masked ∧ 2 + extSize 126 ≤ s.wireIn.length ∧
      declaredLength 126 s.wireIn ≤ 125 ∧ (ctl false false 126).fin = false) ∧
    (dec .expectUnmasked [0x09#8, 0x00#8]).dMode = .expectUnmasked ∧
    (dec .expectUnmasked [0x09#8, 0x7E#8, 0x00#8, 0x7E#8]).call = some .decode := by decide

/-- Seven extended bytes, and eight with the top bit set. -/
theorem test_witness_TopBitIsTestedOnWholeLength :
    (dec .expectUnmasked [0x82#8, 0x7F#8, 0x80#8, 0#8, 0#8, 0#8, 0#8, 0#8, 0#8]).dMode = modeOf (maskField 0x7F#8) ∧
    selField 0x7F#8 = 127 ∧ [0x80#8, 0#8, 0#8, 0#8, 0#8, 0#8, (0#8 : Byte)].length < 8 ∧
    8 ≤ [0x80#8, 0#8, 0#8, 0#8, 0#8, 0#8, 0#8, (0#8 : Byte)].length ∧
    128 ≤ byteNat [0x80#8, 0#8, 0#8, 0#8, 0#8, 0#8, 0#8, 0#8] 0 := by decide

theorem test_witness_FixedHeaderNeedsBothBytes :
    (dec .expectMasked [0x81#8]).call = some .decode ∧ (dec .expectMasked [0x81#8]).wireIn.length < 2 ∧
    (dec .expectMasked hi).wireIn =
      0x81#8 :: 0x83#8 :: [0x61#8, 0x32#8, 0x34#8, 0x63#8, 0x29#8, 0x5B#8, 0x15#8] := by decide

/-- One input for each of the five refusals. -/
theorem test_witness_RefusedFramesAreTheListedOnes :
    decodeFrame buildParams .expectUnmasked [0x82#8, 0x7F#8, 0x80#8, 0#8, 0#8, 0#8, 0#8, 0#8, 0#8, 0#8] =
      .error .invalidLength ∧
    decodeFrame buildParams .expectUnmasked [0x8A#8, 0x7E#8, 0x00#8, 0x7E#8] = .error .invalidLength ∧
    decodeFrame buildParams .expectUnmasked [0x08#8, 0x7D#8] = .error .protocolError ∧
    decodeFrame buildParams .expectMasked [0x81#8, 0x00#8] = .error .protocolError ∧
    decodeFrame buildParams .expectUnmasked [0x81#8, 0x80#8] = .error .protocolError := ⟨rfl, rfl, rfl, rfl, rfl⟩

/-- A successful ENCODE: the state of the statements EncodeCompletes, EncodedSize and
WireByteIsMaskedByWireKeyByte. -/
theorem test_witness_encode_ok :
    let h := hdr true 1 (some 0x63343261) 3
    let s := enc h [0x48#8, 0x69#8, 0x21#8]
    h.valid = true ∧ s.call = some .encode ∧ s.h.masked = true ∧
      s.pay.length = s.h.payloadLength.toNat ∧ ∃ t, step s = .next t ∧ t.result = some .ok ∧ t.wireOut = hi :=
  ⟨rfl, rfl, rfl, rfl, _, rfl, rfl, rfl⟩

theorem test_witness_RsvBitsAreCarriedNotTested :
    ∃ t, step (enc (hdr false 2 none 1) [7#8]) = .next t ∧ t.result = some .ok := ⟨_, rfl, rfl⟩

/-- Both modes of the second call. -/
theorem test_witness_DecodeOfEncodeGivesFrameBack :
    let h := hdr true 1 (some 0x63343261) 3
    ∃ t, step (enc h [0x48#8, 0x69#8, 0x21#8]) = .next t ∧ t.result = some .ok ∧
      (dec .expectMasked hi).wireIn = t.wireOut ∧ (dec .expectMasked hi).dMode = modeOf h.masked ∧
      (dec .expectUnmasked hi).wireIn = t.wireOut ∧ (dec .expectUnmasked hi).dMode ≠ modeOf h.masked :=
  ⟨_, rfl, rfl, rfl, rfl, rfl, by decide⟩

/-- A frame with a byte behind it. -/
theorem test_witness_TrailingBytesAreNotRead :
    ∃ d, decodeFrame buildParams .expectMasked (hi ++ [0xFF#8]) = .ok d ∧ d.consumed = 9 := ⟨_, rfl, rfl⟩

theorem test_witness_TruncatedFrameIsIncomplete :
    ∃ d, decodeFrame buildParams .expectMasked hi = .ok d ∧ d.consumed = hi.length ∧ 8 < hi.length := by
  exact ⟨_, rfl, rfl, by decide⟩

/-- Two states that differ in all but the inputs of DECODE. -/
theorem test_witness_DecodeDependsOnItsInputsAlone :
    let s := dec .expectMasked hi
    let s' := { s with h := hdr true 9 none 5, buf := [1#8], pos := 7, keyPhase := 2 }
    s.call = some .decode ∧ s'.call = some .decode ∧ s.wireIn = s'.wireIn ∧ s.dMode = s'.dMode ∧
      (∃ t, step s = .next t ∧ t.result = some .ok) ∧ ∃ t', step s' = .next t' :=
  ⟨rfl, rfl, rfl, rfl, ⟨_, rfl, rfl⟩, ⟨_, rfl⟩⟩

/-- Two states that differ in all but the operands, for operations of each kind: register, buffer, neither. -/
theorem test_witness_OperationsDependOnTheirOperandsAlone :
    let s := State.reset.presentEncode (hdr true 1 (some 5) 1) [7#8]
    let s' := { s with buf := [1#8], pos := 7, keyPhase := 2, dMode := .expectMasked, wireOut := [9#8] }
    s.call = some .encode ∧ s'.call = some .encode ∧ Call.encode.sameOperands s s' ∧
      (∃ t, step s = .next t ∧ t.result = some .ok) ∧ (∃ t', step s' = .next t') ∧
    Call.keyBytes.sameOperands State.reset (State.reset.presentRegisters .isControl (hdr true 9 none 5)) ∧
    Call.sameOperands State.reset s' (.opcFromRaw 16) :=
  ⟨rfl, rfl, ⟨rfl, rfl⟩, ⟨_, rfl, rfl⟩, ⟨_, rfl⟩, rfl, trivial⟩

/-- Two frames one behind the other. -/
theorem test_witness_CallerLoopRecoversEncodedFrames :
    let frames := [(hdr true 1 (some 0x63343261) 3, [0x48#8, 0x69#8, (0x21#8 : Byte)]), (hdr true 0 (some 1) 0, [])]
    (∀ f ∈ frames, f.1.masked = true) ∧
    frames.map (fun f => encodeFrame buildParams f.1 f.2) =
      [hi, [0x80#8, 0x80#8, 1#8, 0#8, 0#8, 0#8]].map .ok := ⟨by decide, rfl⟩

/-- Each clause of the encoder's checks, at the value where it begins. -/
theorem test_witness_EncodeChecksHeaderFirst :
    2 ^ 63 ≤ (hdr true 2 none 0x8000000000000000).payloadLength.toNat ∧
    ((hdr true 10 none 126).opcode = 10 ∧ 125 < (hdr true 10 none 126).payloadLength.toNat ∧
      (hdr true 10 none 126).payloadLength.toNat < 2 ^ 63) ∧
    ((hdr false 8 none 125).opcode = 8 ∧ (hdr false 8 none 125).payloadLength.toNat ≤ 125 ∧
      (hdr false 8 none 125).fin = false) ∧
    (controlLimitsMet 2 true 0x7FFFFFFFFFFFFFFF = true ∧
      (enc (hdr true 2 none 0x7FFFFFFFFFFFFFFF) []).pay.length ≠ 0x7FFFFFFFFFFFFFFF) := by decide

/-- ENCODE and ENCODE_MSG, with an error and without. -/
theorem test_witness_EncodeLeavesPayloadAndRegisters :
    (∃ t, step (enc (hdr true 9 none 126) []) = .next t ∧ t.result = some (.err .invalidLength)) ∧
    ∃ t, step (State.reset.presentEncodeMsg 2 false none [1#8]) = .next t ∧ t.result = some .ok :=
  ⟨⟨_, rfl, rfl⟩, ⟨_, rfl, rfl⟩⟩

/-- A payload of 2^63 bytes, and a short one. -/
theorem test_witness_EncodeMsgIsHdrNewThenEncode :
    (State.reset.presentEncodeMsg 2 true none (zeros (2 ^ 63))).call = some (.encodeMsg 2 true none) ∧
    2 ^ 63 ≤ (State.reset.presentEncodeMsg 2 true none (zeros (2 ^ 63))).pay.length ∧
    (State.reset.presentEncodeMsg 2 true (some 1) [1#8]).pay.length < 2 ^ 63 :=
  ⟨rfl, by simp [State.presentEncodeMsg, zeros_length], by decide⟩

theorem test_witness_encodeFrame_ok :
    encodeFrame buildParams (hdr true 1 (some 0x63343261) 3) [0x48#8, 0x69#8, 0x21#8] = .ok hi := rfl

/-- The last code taken and the first refused. -/
theorem test_witness_OpcodeFromRawCode :
    (op (.opcFromRaw 15)).call = some (.opcFromRaw 15) ∧ (15 : Nat) ≤ 15 ∧
    (op (.opcFromRaw 16)).call = some (.opcFromRaw 16) ∧ (15 : Nat) < 16 := by decide

theorem test_witness_OpcodeViewIsABijection :
    (op (.opcToRaw .reserved15)).call = some (.opcToRaw .reserved15) ∧ ∃ t, step (op (.opcToRaw .reserved15)) = .next t ∧
      ∃ u, step { t with h := { t.h with opcode := t.ports.rawCode }, call := some .opcDemux } = .next u :=
  ⟨rfl, _, rfl, _, rfl⟩

theorem test_witness_OpcodeClassesAndSelectLines :
    (op .isControl).call = some .isControl ∧ (∃ t, step (op .isControl) = .next t) ∧
    ∃ u, step { op .isControl with call := some .opcDemux } = .next u := ⟨rfl, ⟨_, rfl⟩, ⟨_, rfl⟩⟩

theorem test_witness_PackControlBits :
    (op (.ctlPack 127)).call = some (.ctlPack 127) ∧ ∃ t, step (op (.ctlPack 127)) = .next t ∧
      ∃ u, step { t with call := some (.ctlUnpack t.ports.byte0 t.ports.byte1) } = .next u := ⟨rfl, _, rfl, _, rfl⟩

theorem test_witness_UnpackControlBits :
    (op (.ctlUnpack 0xFF 0x80)).call = some (.ctlUnpack 0xFF 0x80) ∧
      ∃ t, step (op (.ctlUnpack 0xFF 0x80)) = .next t ∧
        ∃ u, step { t with call := some (.ctlPack t.ports.sel) } = .next u := ⟨rfl, _, rfl, _, rfl⟩

/-- MASK written from the wire: the key goes with 0, and with 1 stays where there was one (10_state.md R13). -/
theorem test_ctlUnpack_key :
    (run (.ctlUnpack 0x81 0x03) (hdr true 1 (some 7) 0)).map (fun t => (t.h.masked, t.h.maskKey)) = some (false, none) ∧
    (run (.ctlUnpack 0x81 0x83) (hdr true 1 (some 7) 0)).map (fun t => (t.h.masked, t.h.maskKey)) = some (true, some 7) ∧
    (run (.ctlUnpack 0x81 0x83) (hdr true 1 none 0)).map (fun t => t.h.masked) = some true := by decide

/-- Each clause of HDR_NEW. -/
theorem test_witness_HdrNewValidatesAndWrites :
    (op (.hdrNew (arg true 2 false 0 0x8000000000000000))).call = some (.hdrNew (arg true 2 false 0 0x8000000000000000)) ∧
    2 ^ 63 ≤ (arg true 2 false 0 0x8000000000000000).payloadLength.toNat ∧
    125 < (arg true 9 false 0 126).payloadLength.toNat ∧
    ((arg false 9 false 0 125).payloadLength.toNat ≤ 125 ∧ (arg false 9 false 0 125).fin = false) ∧
    controlLimitsMet 9 true 125 = true := by decide

/-- One operation for each kind. -/
theorem test_witness_errors :
    (∃ t, step (op (.opcFromRaw 16)) = .next t ∧ t.result = some (.err .invalidOpcode)) ∧
    (∃ t, step (op (.lenDec (.ext64 0x80 0 0 0 0 0 0 0))) = .next t ∧ t.result = some (.err .invalidLength)) ∧
    (∃ t, step (enc (hdr true 1 none 4) []) = .next t ∧ t.result = some (.err .lengthMismatch)) ∧
    (∃ t, step (dec .expectMasked []) = .next t ∧ t.result = some (.err .incomplete)) ∧
    ∃ t, step (op (.hdrNew (arg false 9 false 0 0))) = .next t ∧ t.result = some (.err .protocolError) :=
  ⟨⟨_, rfl, rfl⟩, ⟨_, rfl, rfl⟩, ⟨_, rfl, rfl⟩, ⟨_, rfl, rfl⟩, ⟨_, rfl, rfl⟩⟩

theorem test_witness_LengthIsEncodedInItsClass :
    (op .lenEnc).call = some .lenEnc ∧ (∃ t, step (op .lenEnc) = .next t) ∧
    ∃ u, step { op .lenEnc with call := some .lenClass } = .next u := ⟨rfl, ⟨_, rfl⟩, ⟨_, rfl⟩⟩

/-- The largest value taken and the smallest refused. -/
theorem test_witness_LengthIsDecoded :
    (op (.lenDec (.inline 125))).call = some (.lenDec (.inline 125)) ∧
    declaredLength 127 [0#8, 0#8, 0x7F#8, 0xFF#8, 0xFF#8, 0xFF#8, 0xFF#8, 0xFF#8, 0xFF#8, 0xFF#8] = 2 ^ 63 - 1 ∧
    declaredLength 127 [0#8, 0#8, 0x80#8, 0#8, 0#8, 0#8, 0#8, 0#8, 0#8, 0#8] = 2 ^ 63 := by decide

theorem test_witness_LengthCoderRoundTrip :
    (0x7FFFFFFFFFFFFFFF : Len).toNat < 2 ^ 63 ∧ lenDec buildParams (.ext16 0x00 0x7D) = .ok 125 ∧
    lenDec buildParams (.ext16 0x00 0x7E) = .ok 126 := ⟨by decide, rfl, rfl⟩

theorem test_witness_KeyBytesAreLittleEndian :
    (∃ t, step (op (.keyFromBytes 1 2 3 4)) = .next t ∧ ∃ u, step { t with call := some .keyBytes } = .next u) ∧
    ∃ t, step (State.reset.presentRegisters .keyBytes (hdr true 1 (some 0xDEADBEEF) 0)) = .next t :=
  ⟨⟨_, rfl, _, rfl⟩, ⟨_, rfl⟩⟩

theorem test_witness_masking :
    (State.reset.presentApplyMask 0x12345678 [1#8]).call = some (.applyMask 0x12345678) ∧
    (State.reset.presentApplyMask 0x12345678 []).buf = [] ∧
    ∃ t, step (State.reset.presentApplyMask 0x12345678 [1#8]) = .next t ∧
      ∃ u, step { t with call := some (.applyMask 0x12345678) } = .next u := ⟨rfl, rfl, _, rfl, _, rfl⟩

theorem test_witness_KeyRotationTracksPhase : [1#8, 2#8, 3#8, (4#8 : Byte)].length % 4 = 0 := by decide

/-- A delivered masked frame and a delivered unmasked one. -/
theorem test_witness_unmasking :
    (∃ t, step (dec .expectMasked hi) = .next t ∧ t.result = some .ok ∧ t.h.masked = true) ∧
    ∃ t, step (dec .expectUnmasked [0x82#8, 0x01#8, 5#8]) = .next t ∧ t.result = some .ok ∧ t.h.masked = false :=
  ⟨⟨_, rfl, rfl, rfl⟩, ⟨_, rfl, rfl, rfl⟩⟩

/-- The invariant holds of a state with a delivered frame and a whole `OUT`, and a step is taken from it. -/
theorem test_witness_EveryStepKeepsInvariant :
    let s := { dec .expectMasked hi with pos := 9, consumed := 9, payOut := [1#8, 2#8, 3#8], wireOut := hi }
    s.Inv ∧ ∃ t, step s = .next t := by
  exact ⟨⟨rfl, .inr ⟨true, 3, rfl, by decide⟩, .inr ⟨.expectMasked, _, rfl, rfl⟩⟩, ⟨_, rfl⟩⟩

theorem test_witness_InputsAreNeverWritten : ∃ t, step (dec .expectMasked hi) = .next t := ⟨_, rfl⟩

/-- One operation of each list of the frame statement. -/
theorem test_witness_RegisterOperationsLeaveTheRest :
    (op .lenClass).call = some .lenClass ∧ (∃ t, step (op .lenClass) = .next t) ∧
    (op (.opcFromRaw 1)).call = some (.opcFromRaw 1) ∧ ∃ t, step (op (.opcFromRaw 1)) = .next t :=
  ⟨rfl, ⟨_, rfl⟩, rfl, ⟨_, rfl⟩⟩

end Sys2Proof.Tests
end

/-! PROOFS. The statement about the RSV bits (spec 30_encoding.md R63), with the lemmas on the frame codec it needs: how a
frame's result and its bytes depend on RSV1 to RSV3. -/

namespace Sys2Proof

/-- A BYTE0 row's operand bits with other RSV bits. -/
def Ctl.withRsv (c : Ctl) (r1 r2 r3 : Bool) : Ctl := { c with rsv1 := r1, rsv2 := r2, rsv3 := r3 }

@[simp] theorem Opcode.code_ofCode (c : BitVec 4) : (Opcode.ofCode c).code = c := by
  revert c; decide

/-- An unmasked frame with an inline length is named by its BYTE0 row (log 2). -/
theorem decodeInstr_unmasked_inline {b0 b1 : Byte} (rest : Bytes) (hm : maskField b1 = false)
    (hs : (selField b1).toNat ≤ 125) :
    decodeInstr (b0 :: b1 :: rest) = .ok (.ofOpcode (.ofCode (opcodeField b0)) (unpackCtl b0 b1)) := by
  simp [decodeInstr, decodeOpcodeRow, hm, Nat.not_lt.mpr hs]

end Sys2Proof

namespace Sys2Proof.Machine

/-- Header registers with other RSV bits. -/
def Header.withRsv (h : Header) (r1 r2 r3 : Bool) : Header := { h with rsv1 := r1, rsv2 := r2, rsv3 := r3 }

/-- A decoded frame with other RSV bits in its header. -/
def Decoded.withRsv (d : Decoded) (r1 r2 r3 : Bool) : Decoded := { d with header := d.header.withRsv r1 r2 r3 }

/-! ### The decoder -/

/-- DECODE carries the RSV bits into the header and tests them nowhere. -/
theorem receiveWord_withRsv (p : Params) (m : Mode) (inp : Bytes) (op : BitVec 4) (c : Ctl) (r1 r2 r3 : Bool) :
    receiveWord p m inp op (c.withRsv r1 r2 r3) =
      (receiveWord p m inp op c).map (Decoded.withRsv · r1 r2 r3) := by
  rw [receiveWord_eq, receiveWord_eq]
  dsimp only [Ctl.withRsv]
  cases modeFault p m c.masked with
  | some e => rfl
  | none =>
    by_cases hext : inp.length < 2 + extSize c.sel
    · simp only [hext, if_true]; rfl
    by_cases htop : 2 ^ 63 ≤ declaredLength c.sel inp
    · simp only [hext, htop, if_true, if_false]; rfl
    simp only [hext, htop, if_false]
    cases minimalFault p (selForm c.sel) (BitVec.ofNat 64 (declaredLength c.sel inp)) with
    | some e => rfl
    | none =>
      cases controlFault p op c.fin (BitVec.ofNat 64 (declaredLength c.sel inp)) with
      | some e => rfl
      | none =>
        by_cases hall : inp.length < headerSize c.masked c.sel + declaredLength c.sel inp
        · simp only [hall, if_true]; rfl
        · simp only [hall, if_false]; rfl

/-- The end of a DECODE is the same with other RSV bits, but for the RSV registers of a delivered header. -/
theorem State.finishDecode_withRsv (s : State) (r : Except ErrorKind Decoded) (r1 r2 r3 : Bool) :
    (s.finishDecode (r.map (Decoded.withRsv · r1 r2 r3))).result = (s.finishDecode r).result ∧
      ((s.finishDecode r).result = some .ok → s.finishDecode (r.map (Decoded.withRsv · r1 r2 r3)) =
        { s.finishDecode r with h := (s.finishDecode r).h.withRsv r1 r2 r3 }) := by
  cases r with
  | error e => exact ⟨rfl, nofun⟩
  | ok d => exact ⟨rfl, fun _ => rfl⟩

/-- A BYTE0 row with other RSV bits ends with the same result, and delivers the same but for the RSV registers. -/
theorem exec_ofOpcode_withRsv (o : Opcode) (c : Ctl) (r1 r2 r3 : Bool) (s : State) : ∃ t u,
    exec (.ofOpcode o c) s = .next t ∧ exec (.ofOpcode o (c.withRsv r1 r2 r3)) s = .next u ∧
    u.result = t.result ∧ (t.result = some .ok → u = { t with h := t.h.withRsv r1 r2 r3 }) := by
  refine ⟨_, _, exec_ofOpcode o c s, exec_ofOpcode o _ s, ?_⟩
  rw [receiveWord_withRsv]
  exact s.finishDecode_withRsv _ r1 r2 r3

/-! ### The encoder -/

/-- ENCODE puts out the frame of a header that passes every check, with a payload of the header's length. -/
theorem encodeFrame_of_checks {h : Header} {pay : Bytes} (hn : h.payloadLength.toNat < 2 ^ 63)
    (hl : controlLimitsMet h.opcode h.fin h.payloadLength.toNat = true) (hp : pay.length = h.payloadLength.toNat) :
    encodeFrame buildParams h pay = .ok (emitFrame h pay) := by
  simp [encodeFrame, (headerFault_none_iff _ _ _).mpr ⟨hn, hl⟩, hp]

/-- A frame is header byte 0 and the rest. -/
theorem emitFrame_eq_cons (h : Header) (pay : Bytes) :
    emitFrame h pay = packByte0 h.fin h.rsv1 h.rsv2 h.rsv3 h.opcode :: (emitFrame h pay).tail := by
  rw [emitFrame_eq]; rfl

/-- The rest of a frame has no RSV bit in it. -/
theorem emitFrame_withRsv_tail (h : Header) (pay : Bytes) (r1 r2 r3 : Bool) :
    (emitFrame (h.withRsv r1 r2 r3) pay).tail = (emitFrame h pay).tail := by
  rw [emitFrame_eq, emitFrame_eq]; rfl

/-- What an ENCODE that returns `OK` did: its frame was put out. -/
theorem encode_ok_of_step {s t : State} (hc : s.call = some .encode) (hs : step s = .next t)
    (ht : t.result = some .ok) : encodeFrame buildParams s.h s.pay = .ok t.wireOut := by
  rw [step_encode hc] at hs
  cases hs
  rcases s.finishEncode_cases s.h.masked (encodeFrame buildParams s.h s.pay) with ⟨k, -, e⟩ | ⟨out, hout, e⟩
  · simp [runEncode, e] at ht
  · simp [runEncode, hout]

/-- An ENCODE whose frame is put out returns `OK` with it. -/
theorem step_encode_ok {s : State} {out : Bytes} (hc : s.call = some .encode)
    (he : encodeFrame buildParams s.h s.pay = .ok out) :
    ∃ t, step s = .next t ∧ t.result = some .ok ∧ t.wireOut = out :=
  ⟨_, step_encode hc, by simp [runEncode, he], by simp [runEncode, he]⟩

/-- A successful ENCODE succeeds with other RSV bits too, and its output differs in the RSV bits of byte 0 alone. -/
theorem step_encode_withRsv {s t : State} (r1 r2 r3 : Bool) (hc : s.call = some .encode) (hs : step s = .next t)
    (ht : t.result = some .ok) :
    ∃ u rest b0 b0', step { s with h := s.h.withRsv r1 r2 r3 } = .next u ∧ u.result = some .ok ∧
      t.wireOut = b0 :: rest ∧ u.wireOut = b0' :: rest ∧
      unpackByte0 b0' = { unpackByte0 b0 with rsv1 := r1, rsv2 := r2, rsv3 := r3 } := by
  obtain ⟨hn, hl, hp, hout⟩ := encodeFrame_ok (encode_ok_of_step hc hs ht)
  have he : encodeFrame buildParams (s.h.withRsv r1 r2 r3) s.pay = .ok (emitFrame (s.h.withRsv r1 r2 r3) s.pay) :=
    encodeFrame_of_checks hn hl hp
  obtain ⟨u, hu, hur, huo⟩ := step_encode_ok (s := { s with h := s.h.withRsv r1 r2 r3 }) hc he
  refine ⟨u, _, _, packByte0 s.h.fin r1 r2 r3 s.h.opcode, hu, hur, hout.trans (emitFrame_eq_cons s.h s.pay), ?_, ?_⟩
  · rw [huo, emitFrame_eq_cons, emitFrame_withRsv_tail]; rfl
  · rw [unpackByte0_packByte0, unpackByte0_packByte0]

/-! ### The empty unmasked frame, for every opcode and combination -/

/-- DECODE of an unmasked frame with an inline length. -/
theorem step_presentDecode_unmasked_inline (s : State) (m : Mode) {b0 b1 : Byte} (rest : Bytes)
    (hm : maskField b1 = false) (hs : (selField b1).toNat ≤ 125) :
    step (s.presentDecode m (b0 :: b1 :: rest)) = .next
      ((s.presentDecode m (b0 :: b1 :: rest)).finishDecode (decodeFrame buildParams m (b0 :: b1 :: rest))) := by
  have hrow := decodeInstr_unmasked_inline (b0 := b0) rest hm hs
  rcases step_decode_cases (s := s.presentDecode m (b0 :: b1 :: rest)) rfl with ⟨i, hi, hstep⟩ | ⟨e, he, -⟩
  · cases hrow.symm.trans hi
    rw [hstep, exec_ofOpcode, Opcode.code_ofCode, decodeFrame_cons]
    rfl
  · cases hrow.symm.trans he

/-- The header of an unmasked frame with FIN = 1 and no payload. -/
def emptyHeader (r1 r2 r3 : Bool) (opcode : BitVec 4) : Header := ⟨true, r1, r2, r3, opcode, none, 0⟩

/-- The two bytes of that frame. -/
def emptyFrame (r1 r2 r3 : Bool) (opcode : BitVec 4) : Bytes := [packByte0 true r1 r2 r3 opcode, packByte1 false 0]

/-- FIN = 1 and no payload meet the control-frame limits of every opcode. -/
theorem controlLimitsMet_empty (opcode : BitVec 4) : controlLimitsMet opcode true 0 = true := by
  simp [controlLimitsMet]

theorem encodeFrame_emptyHeader (r1 r2 r3 : Bool) (opcode : BitVec 4) :
    encodeFrame buildParams (emptyHeader r1 r2 r3 opcode) [] = .ok (emptyFrame r1 r2 r3 opcode) :=
  encodeFrame_of_checks (h := emptyHeader r1 r2 r3 opcode) (show 0 < 2 ^ 63 by decide)
    (controlLimitsMet_empty opcode) rfl

theorem decodeFrame_emptyFrame (r1 r2 r3 : Bool) (opcode : BitVec 4) :
    decodeFrame buildParams .expectUnmasked (emptyFrame r1 r2 r3 opcode) =
      .ok ⟨emptyHeader r1 r2 r3 opcode, [], 2⟩ := by
  have hf : controlFault buildParams opcode true 0#64 = none :=
    (controlFault_none_iff opcode true 0).mpr (controlLimitsMet_empty opcode)
  rw [emptyFrame, decodeFrame_cons, opcodeField_packByte0, unpackCtl_pack, receiveWord_eq]
  simp [modeFault_buildParams, modeOf, hf, headerSize, extSize, declaredLength, receivedFrame, receivedHeader,
    wireHeader, frameKey, unmask, emptyHeader]

/-- The empty frame of an opcode and an RSV combination encodes and decodes with `OK`, and gives its header back. -/
theorem emptyFrame_encodes_and_decodes (s : State) (r1 r2 r3 : Bool) (opcode : BitVec 4) :
    ∃ t u, step (s.presentEncode (emptyHeader r1 r2 r3 opcode) []) = .next t ∧ t.result = some .ok ∧
      step (s.presentDecode .expectUnmasked t.wireOut) = .next u ∧ u.result = some .ok ∧
      u.h = emptyHeader r1 r2 r3 opcode := by
  obtain ⟨t, ht, htr, hto⟩ := step_encode_ok (s := s.presentEncode (emptyHeader r1 r2 r3 opcode) []) rfl
    (encodeFrame_emptyHeader r1 r2 r3 opcode)
  have hdec : step (s.presentDecode .expectUnmasked (emptyFrame r1 r2 r3 opcode)) = _ :=
    step_presentDecode_unmasked_inline s .expectUnmasked [] (maskField_packByte1 false 0)
      (by rw [selField_packByte1]; decide)
  rw [← emptyFrame, decodeFrame_emptyFrame, State.finishDecode_ok] at hdec
  exact ⟨t, _, ht, htr, hto ▸ hdec, rfl, rfl⟩

/-- Settles O24: RSV1 to RSV3 reach neither a check of DECODE nor one of ENCODE, and stand in byte 0 alone; the empty
unmasked frame shows every opcode with every combination. -/
theorem rsvBitsAreCarriedNotTested : Obligations.RsvBitsAreCarriedNotTested :=
  ⟨exec_ofOpcode_withRsv, fun _ _ => step_encode_withRsv,
    fun s opcode r1 r2 r3 => emptyFrame_encodes_and_decodes s r1 r2 r3 opcode⟩

end Sys2Proof.Machine

/-! PROOFS. The statements of the header model on OPC_FROM_RAW and CTL_PACK (spec 40_header_model.md R80, R84), with the
lemmas on the errors a DECODE can end with (60_exceptions.md R171, column "raised by"). -/

namespace Sys2Proof.Machine

/-! ### The errors of DECODE's checks -/

theorem modeFault_raisedBy_decode {p : Params} {m : Mode} {masked : Bool} {k : ErrorKind}
    (h : modeFault p m masked = some k) : raisedBy k .decode = true := by
  unfold modeFault at h
  split at h
  · cases h; rfl
  · split at h <;> cases h
    rfl
  · cases h

theorem minimalFault_raisedBy_decode {p : Params} {form : LenClass} {n : Len} {k : ErrorKind}
    (h : minimalFault p form n = some k) : raisedBy k .decode = true := by
  unfold minimalFault at h
  split at h <;> cases h
  rfl

theorem controlFault_raisedBy_decode {p : Params} {op : BitVec 4} {fin : Bool} {n : Len} {k : ErrorKind}
    (h : controlFault p op fin n = some k) : raisedBy k .decode = true := by
  unfold controlFault at h
  split at h
  · cases h; rfl
  · split at h <;> cases h
    rfl

theorem receivePayload_raisedBy_decode {inp : Bytes} {pos : Nat} {h : Header} {k : ErrorKind}
    (he : receivePayload inp pos h = .error k) : raisedBy k .decode = true := by
  rw [receivePayload_eq] at he
  split at he <;> cases he
  rfl

/-! ### The errors of a row, and of a DECODE step -/

/-- From the two fixed header bytes on, each check or fetch that fails gives an error of DECODE's. -/
theorem receiveWord_raisedBy_decode {p : Params} {m : Mode} {inp : Bytes} {op : BitVec 4} {c : Ctl} {k : ErrorKind}
    (h : receiveWord p m inp op c = .error k) : raisedBy k .decode = true := by
  rw [receiveWord_eq] at h
  split at h
  next hmode => cases h; exact modeFault_raisedBy_decode hmode
  split at h
  · cases h; rfl
  split at h
  · cases h; rfl
  split at h
  next hmin => cases h; exact minimalFault_raisedBy_decode hmin
  split at h
  next hctl => cases h; exact controlFault_raisedBy_decode hctl
  split at h <;> cases h
  rfl

/-- So does each check or fetch that is left once the whole header has been read. -/
theorem receiveHeader_raisedBy_decode {p : Params} {m : Mode} {inp : Bytes} {size : Nat} {form : LenClass} {b : Byte0}
    {n : Len} {key : Option Key} {k : ErrorKind} (h : receiveHeader p m inp size form b n key = .error k) :
    raisedBy k .decode = true := by
  unfold receiveHeader at h
  split at h
  next hmode => cases h; exact modeFault_raisedBy_decode hmode
  split at h
  next hmin => cases h; exact minimalFault_raisedBy_decode hmin
  split at h
  next hctl => cases h; exact controlFault_raisedBy_decode hctl
  exact receivePayload_raisedBy_decode h

theorem State.finishDecode_result_err {s : State} {r : Except ErrorKind Decoded} {k : ErrorKind}
    (h : (s.finishDecode r).result = some (.err k)) : r = .error k := by
  cases r with
  | ok d => cases h
  | error e => cases h; rfl

/-- A row of either kind ends with an error of DECODE's, if with any. -/
theorem exec_raisedBy_decode {i : Instr} {s t : State} {k : ErrorKind} (hs : exec i s = .next t)
    (ht : t.result = some (.err k)) : raisedBy k .decode = true := by
  rcases hk : i.kind
  · obtain ⟨o, c, rfl⟩ := Instr.eq_ofOpcode_of_kind hk
    cases (exec_ofOpcode o c s).symm.trans hs
    exact receiveWord_raisedBy_decode (State.finishDecode_result_err ht)
  · obtain ⟨size, form, b, n, key, e, -⟩ := exec_header i hk s
    cases e.symm.trans hs
    exact receiveHeader_raisedBy_decode (State.finishDecode_result_err ht)

theorem step_decode_raisedBy {s t : State} {k : ErrorKind} (hc : s.call = some .decode) (hs : step s = .next t)
    (ht : t.result = some (.err k)) : raisedBy k .decode = true := by
  rcases step_decode_cases hc with ⟨i, -, e⟩ | ⟨_, -, e⟩
  · exact exec_raisedBy_decode (e.symm.trans hs) ht
  · cases e.symm.trans hs
    cases ht; rfl

/-! ### OPC_FROM_RAW and CTL_PACK -/

/-- OPC_FROM_RAW of a 4-bit code. -/
theorem runOpcFromRaw_of_le {n : Nat} (h : n ≤ 15) (s : State) :
    runOpcFromRaw n s = State.succeeded { s with h := { s.h with opcode := BitVec.ofNat 4 n } } :=
  if_neg (Nat.not_lt.mpr h)

/-- OPC_FROM_RAW of a wider number. -/
theorem runOpcFromRaw_of_lt {n : Nat} (h : 15 < n) (s : State) : runOpcFromRaw n s = s.failed .invalidOpcode :=
  if_pos h

/-- The two bytes CTL_PACK gives, by their bit weights (30_encoding.md R52, R53). -/
theorem ctlPack_eq_fixedBytes (h : Header) (sel : Sel) :
    [(ctlPack h sel).1, (ctlPack h sel).2] = fixedBytes h sel.toNat := by
  simp only [ctlPack, fixedBytes, packByte0_eq, packByte1_eq]

/-- Settles O39: OPC_FROM_RAW by its one comparison; `InvalidOpcode` is not among the errors of DECODE. -/
theorem opcodeFromRawCode : Obligations.OpcodeFromRawCode := by
  refine ⟨fun s n hc => ⟨fun hn => ?_, fun hn => ?_⟩, fun s t hc hs ht => ?_⟩
  · rw [step_opcFromRaw hc, runOpcFromRaw_of_le hn]
  · rw [step_opcFromRaw hc, runOpcFromRaw_of_lt hn]
  · have h : raisedBy .invalidOpcode .decode = true := step_decode_raisedBy hc hs ht
    cases h

/-- Settles O41: the two bytes go to their ports, and their values are the sums of the bit weights. -/
theorem packControlBits : Obligations.PackControlBits :=
  fun s sel hc => ⟨(ctlPack s.h sel).1, (ctlPack s.h sel).2, step_ctlPack hc, ctlPack_eq_fixedBytes s.h sel⟩

end Sys2Proof.Machine


/-! PROOFS. The statement of the length coder on LEN_CLASS and LEN_ENC (spec 41_length_coder.md R110, R111), with the
big-endian byte splits as numbers and one equation of the length encoder per class. -/

namespace Sys2Proof

/-! ### The big-endian byte splits as numbers (20_memory.md R31) -/

/-- A byte of a word is the word shifted down to it, by a division. -/
theorem extractByte_eq_ofNat_div {w : Nat} (v : BitVec w) (start : Nat) :
    v.extractLsb' start 8 = BitVec.ofNat 8 (v.toNat / 2 ^ start) := by
  rw [← Nat.shiftRight_eq_div_pow]; rfl

theorem toBe16_eq_ofNat_div (v : BitVec 16) :
    toBe16 v = [BitVec.ofNat 8 (v.toNat / 256), BitVec.ofNat 8 v.toNat] := by
  simp [toBe16, extractByte_eq_ofNat_div]

theorem toBe64_eq_ofNat_div (v : BitVec 64) :
    toBe64 v =
      [BitVec.ofNat 8 (v.toNat / 2 ^ 56), BitVec.ofNat 8 (v.toNat / 2 ^ 48), BitVec.ofNat 8 (v.toNat / 2 ^ 40),
       BitVec.ofNat 8 (v.toNat / 2 ^ 32), BitVec.ofNat 8 (v.toNat / 2 ^ 24), BitVec.ofNat 8 (v.toNat / 2 ^ 16),
       BitVec.ofNat 8 (v.toNat / 2 ^ 8), BitVec.ofNat 8 v.toNat] := by
  simp [toBe64, extractByte_eq_ofNat_div]

end Sys2Proof

namespace Sys2Proof.Machine

/-! ### The class of a length, and its encoding in each class -/

theorem lenClassOf_eq_inline_iff (n : Len) : lenClassOf n = .inline ↔ n.toNat ≤ 125 := by
  unfold lenClassOf
  split
  · simp [*]
  · split <;> simp [*]

theorem lenClassOf_eq_ext64_iff (n : Len) : lenClassOf n = .ext64 ↔ 65535 < n.toNat := by
  unfold lenClassOf
  split
  · simp; omega
  · split <;> simp <;> omega

theorem lenClassOf_eq_ext16_iff (n : Len) : lenClassOf n = .ext16 ↔ 125 < n.toNat ∧ n.toNat ≤ 65535 := by
  unfold lenClassOf
  split
  · simp; omega
  · split <;> simp <;> omega

theorem lenEnc_of_inline {n : Len} (h : lenClassOf n = .inline) : lenEnc n = (n.setWidth 7, []) := by
  simp only [lenEnc, h]

theorem lenEnc_of_ext16 {n : Len} (h : lenClassOf n = .ext16) : lenEnc n = (126, toBe16 (n.setWidth 16)) := by
  simp only [lenEnc, h]

theorem lenEnc_of_ext64 {n : Len} (h : lenClassOf n = .ext64) : lenEnc n = (127, toBe64 n) := by
  simp only [lenEnc, h]

/-- LEN_ENC as numbers: in each class the selector and the extended bytes are those of the value, which the narrower
register of the class holds without loss. -/
theorem lenEnc_eq_lengthBytes (n : Len) : ((lenEnc n).1.toNat, (lenEnc n).2) = lengthBytes n.toNat := by
  cases hc : lenClassOf n with
  | inline =>
    have hn : n.toNat ≤ 125 := (lenClassOf_eq_inline_iff n).mp hc
    have hsel : (n.setWidth 7).toNat = n.toNat := (BitVec.toNat_setWidth _ _).trans (Nat.mod_eq_of_lt (by omega))
    rw [lenEnc_of_inline hc, lengthBytes, if_pos hn, hsel]
  | ext16 =>
    have hn : 125 < n.toNat ∧ n.toNat ≤ 65535 := (lenClassOf_eq_ext16_iff n).mp hc
    have hlow : (n.setWidth 16).toNat = n.toNat := (BitVec.toNat_setWidth _ _).trans (Nat.mod_eq_of_lt (by omega))
    rw [lenEnc_of_ext16 hc, lengthBytes, if_neg (Nat.not_le.mpr hn.1), if_pos hn.2, toBe16_eq_ofNat_div, hlow]
    rfl
  | ext64 =>
    have hn : 65535 < n.toNat := (lenClassOf_eq_ext64_iff n).mp hc
    rw [lenEnc_of_ext64 hc, lengthBytes, if_neg (by omega), if_neg (Nat.not_le.mpr hn), toBe64_eq_ofNat_div]
    rfl

/-- Settles O45: LEN_ENC and LEN_CLASS put the encoding and the class of `H.payload_length` on their ports, and write
nothing else. -/
theorem lengthIsEncodedInItsClass : Obligations.LengthIsEncodedInItsClass := by
  intro s t u hc ht hu
  cases (step_lenEnc hc).symm.trans ht
  cases (step_lenClass rfl).symm.trans hu
  exact ⟨lenEnc_eq_lengthBytes s.h.payloadLength, rfl, lenClassOf_eq_inline_iff s.h.payloadLength,
    lenClassOf_eq_ext64_iff s.h.payloadLength, rfl⟩

end Sys2Proof.Machine

/-! PROOFS. The statements of the masking pipeline on APPLY_MASK applied twice and on an empty buffer (spec 42_masking.md
R123, R124), with the lemmas on a delivered frame they need: where its payload and its key stand in `IN` (44_decoder.md
R146, R152). -/

namespace Sys2Proof

/-! ### The decoder's rows -/

/-- The row of a frame is a BYTE0 row, or the HEADER row its bytes give. -/
theorem decodeInstr_ok_cases {bs : Bytes} {i : Instr} (h : decodeInstr bs = .ok i) :
    (∃ o c, i = .ofOpcode o c) ∨ decodeHeaderRow bs = .ok i := by
  unfold decodeInstr at h
  split at h
  next b0 b1 rest =>
    have hbyte0 (hi : decodeOpcodeRow (b0 :: b1 :: rest) = .ok i) : ∃ o c, i = .ofOpcode o c := by
      cases hi; exact ⟨_, _, rfl⟩
    split at h
    · split at h
      next hrow => exact .inr (hrow.trans h)
      · exact .inl (hbyte0 h)
    · exact .inl (hbyte0 h)
  · cases h

/-- A masked HEADER row carries the key whose four bytes, least significant first, are next. -/
theorem decodeMaskedRow_ok {row : Key → Instr} {bs : Bytes} {i : Instr} (h : decodeMaskedRow row bs = .ok i) :
    ∃ key rest, bs = toLe32 key ++ rest ∧ i = row key := by
  match bs with
  | k0 :: k1 :: k2 :: k3 :: rest =>
    cases h
    exact ⟨le32 k0 k1 k2 k3, rest, by rw [toLe32_le32]; rfl, rfl⟩
  | [] | [_] | [_, _] | [_, _, _] => cases h

end Sys2Proof

namespace Sys2Proof.Machine

/-! ### The key field of a frame (30_encoding.md R58) -/

/-- The key, if there is one, is what the four bytes before offset `size` give, least significant first. -/
def KeyEndsAt (key : Option Key) (inp : Bytes) (size : Nat) : Prop :=
  ∀ k, key = some k → ∀ j, j < 4 → readByte inp (size - 4 + j) = some (keyByte k j)

theorem keyEndsAt_none (inp : Bytes) (size : Nat) : KeyEndsAt none inp size := nofun

theorem keyEndsAt_append (pre rest : Bytes) (key : Key) :
    KeyEndsAt (some key) (pre ++ (toLe32 key ++ rest)) (pre.length + 4) := by
  rintro _ ⟨⟩ j hj
  have hkey : (toLe32 key)[j]? = some (keyByte key j) := by
    interval_cases j <;> rfl
  rw [readByte, Nat.add_sub_cancel, List.getElem?_append_right (Nat.le_add_right _ _), Nat.add_sub_cancel_left,
    List.getElem?_append_left (by simpa using hj), hkey]

/-- Four bytes of a buffer are the bytes of the key read there. -/
theorem drop_eq_wireKey_append {inp : Bytes} {a : Nat} (h : a + 4 ≤ inp.length) :
    inp.drop a = toLe32 (wireKey inp a) ++ inp.drop (a + 4) := by
  rw [wireKey_eq h, toLe32_le32, List.drop_eq_getElem_cons (show a < inp.length by omega),
    List.drop_eq_getElem_cons (show a + 1 < inp.length by omega),
    List.drop_eq_getElem_cons (show a + 2 < inp.length by omega),
    List.drop_eq_getElem_cons (show a + 3 < inp.length by omega)]
  rfl

theorem keyEndsAt_wireKey {inp : Bytes} {a : Nat} (h : a + 4 ≤ inp.length) :
    KeyEndsAt (some (wireKey inp a)) inp (a + 4) := by
  have hkey := keyEndsAt_append (inp.take a) (inp.drop (a + 4)) (wireKey inp a)
  rwa [← drop_eq_wireKey_append h, List.take_append_drop, List.length_take_of_le (by omega)] at hkey

theorem keyEndsAt_frameKey {masked : Bool} {sel : Sel} {inp : Bytes} (h : headerSize masked sel ≤ inp.length) :
    KeyEndsAt (frameKey masked sel inp) inp (headerSize masked sel) := by
  cases masked with
  | false => exact keyEndsAt_none _ _
  | true => exact keyEndsAt_wireKey h

/-- A HEADER row means stage S3 at the end of the header it was read from, with the key that stands there. -/
theorem exec_of_decodeHeaderRow {bs : Bytes} {i : Instr} (h : decodeHeaderRow bs = .ok i) (s : State) :
    ∃ size form b n key,
      exec i s = .next (s.finishDecode (receiveHeader buildParams s.dMode s.wireIn size form b n key)) ∧
        KeyEndsAt key bs size := by
  unfold decodeHeaderRow at h
  split at h
  next b0 b1 rest =>
    dsimp only at h
    split at h
    · split at h
      · obtain ⟨key, rest', rfl, rfl⟩ := decodeMaskedRow_ok h
        exact ⟨_, _, _, _, _, rfl, keyEndsAt_append [b0, b1] rest' key⟩
      · cases h
        exact ⟨_, _, _, _, _, rfl, keyEndsAt_none _ _⟩
    split at h
    · split at h
      next x0 x1 rest =>
        split at h
        · obtain ⟨key, rest', rfl, rfl⟩ := decodeMaskedRow_ok h
          exact ⟨_, _, _, _, _, rfl, keyEndsAt_append [b0, b1, x0, x1] rest' key⟩
        · cases h
          exact ⟨_, _, _, _, _, rfl, keyEndsAt_none _ _⟩
      · cases h
    · split at h
      next x0 x1 x2 x3 x4 x5 x6 x7 rest =>
        split at h
        · cases h
        split at h
        · obtain ⟨key, rest', rfl, rfl⟩ := decodeMaskedRow_ok h
          exact ⟨_, _, _, _, _, rfl, keyEndsAt_append [b0, b1, x0, x1, x2, x3, x4, x5, x6, x7] rest' key⟩
        · cases h
          exact ⟨_, _, _, _, _, rfl, keyEndsAt_none _ _⟩
      · cases h
  · cases h

/-! ### Where a delivered frame stands in `IN` -/

/-- The frame was read from `inp` with a header of `size` bytes: the count takes in header and payload, the payload is
unmasked from the bytes behind the header (44_decoder.md R152), and the key is the header's last field. -/
structure Decoded.ReadFrom (d : Decoded) (inp : Bytes) (size : Nat) : Prop where
  consumed_eq : d.consumed = size + d.header.payloadLength.toNat
  payload_eq : d.payload = unmask d.header.maskKey ((inp.drop size).take d.header.payloadLength.toNat)
  keyEndsAt : KeyEndsAt d.header.maskKey inp size

/-- From a BYTE0 row on, DECODE reads the frame its operand bits describe. -/
theorem receiveWord_readFrom {p : Params} {m : Mode} {inp : Bytes} {op : BitVec 4} {c : Ctl} {d : Decoded}
    (h : receiveWord p m inp op c = .ok d) : d.ReadFrom inp (headerSize c.masked c.sel) := by
  rw [receiveWord_eq] at h
  split at h
  · cases h
  split at h
  · cases h
  split at h
  · cases h
  split at h
  · cases h
  split at h
  · cases h
  split at h
  · cases h
  next hlen =>
    cases h
    have hn : (receivedFrame op c inp).header.payloadLength.toNat = declaredLength c.sel inp :=
      ofNat_declaredLength_toNat c.sel inp
    exact ⟨by rw [hn]; rfl, by rw [hn]; rfl, keyEndsAt_frameKey (by omega)⟩

/-- From a whole header on, DECODE reads the payload behind it. -/
theorem receiveHeader_readFrom {p : Params} {m : Mode} {inp : Bytes} {size : Nat} {form : LenClass} {b : Byte0} {n : Len}
    {key : Option Key} {d : Decoded} (h : receiveHeader p m inp size form b n key = .ok d)
    (hkey : KeyEndsAt key inp size) : d.ReadFrom inp size := by
  unfold receiveHeader at h
  split at h
  · cases h
  split at h
  · cases h
  split at h
  · cases h
  rw [receivePayload_eq] at h
  split at h
  · cases h
  · cases h
    exact ⟨rfl, rfl, hkey⟩

/-- Every DECODE step ends a DECODE, whose frame, if there is one, was read from `IN`. -/
theorem step_decode_finishes {s : State} (hc : s.call = some .decode) :
    ∃ r, step s = .next (s.finishDecode r) ∧ ∀ d, r = .ok d → ∃ size, d.ReadFrom s.wireIn size := by
  rcases step_decode_cases hc with ⟨i, hi, hexec⟩ | ⟨_, -, hraise⟩
  · rcases decodeInstr_ok_cases hi with ⟨o, c, rfl⟩ | hrow
    · exact ⟨_, hexec.trans (exec_ofOpcode o c s), fun _ hd => ⟨_, receiveWord_readFrom hd⟩⟩
    · obtain ⟨size, form, b, n, key, e, hkey⟩ := exec_of_decodeHeaderRow hrow s
      exact ⟨_, hexec.trans e, fun _ hd => ⟨_, receiveHeader_readFrom hd hkey⟩⟩
  · exact ⟨.error .incomplete, hraise, nofun⟩

/-- A DECODE step that returns `OK` delivers a frame read from `IN`. -/
theorem step_decode_ok {s t : State} (hc : s.call = some .decode) (hs : step s = .next t)
    (ht : t.result = some .ok) : ∃ d size, t = s.deliver d ∧ d.ReadFrom s.wireIn size := by
  obtain ⟨r, hr, hread⟩ := step_decode_finishes hc
  cases hr.symm.trans hs
  cases r with
  | ok d =>
    obtain ⟨size, hd⟩ := hread d rfl
    exact ⟨d, size, rfl, hd⟩
  | error e => cases ht

/-! ### A delivered frame's wire payload and key -/

section
variable {d : Decoded} {inp : Bytes} {size : Nat} (hd : d.ReadFrom inp size)
include hd

/-- The payload begins where the header ends. -/
theorem Decoded.ReadFrom.consumed_sub_length : d.consumed - d.header.payloadLength.toNat = size := by
  rw [hd.consumed_eq, Nat.add_sub_cancel]

/-- The last bytes consumed are the wire payload, which unmasking makes the payload. -/
theorem Decoded.ReadFrom.payload_eq_unmask_wire :
    d.payload = unmask d.header.maskKey
      ((inp.take d.consumed).drop (d.consumed - d.header.payloadLength.toNat)) := by
  rw [hd.consumed_sub_length, hd.consumed_eq, List.drop_take, Nat.add_sub_cancel_left, ← hd.payload_eq]

/-- The four bytes before the wire payload are the key's. -/
theorem Decoded.ReadFrom.readByte_key {key : Key} (hkey : d.header.maskKey = some key) {j : Nat} (hj : j < 4) :
    readByte inp (d.consumed - d.header.payloadLength.toNat - 4 + j) = some ((key >>> (8 * j)).setWidth 8) := by
  rw [hd.consumed_sub_length, hd.keyEndsAt key hkey j hj, keyByte_eq_shift, Nat.mod_eq_of_lt hj]

end

/-! ### APPLY_MASK -/

@[simp] theorem runApplyMask_buf (key : Key) (s : State) : (runApplyMask key s).buf = applyMask key s.buf := rfl
@[simp] theorem runApplyMask_result (key : Key) (s : State) : (runApplyMask key s).result = some .ok := rfl

theorem applyMask_applyMask (key : Key) (buf : Bytes) : applyMask key (applyMask key buf) = buf :=
  maskFrom_maskFrom key 0 buf

/-- Settles O50: the byte-wise cipher is its own inverse, and a delivered payload is the cipher's output on the wire
payload, with the key field's key. -/
theorem maskingTwiceRestoresBuffer : Obligations.MaskingTwiceRestoresBuffer := by
  refine ⟨fun s t u key hc hs hu => ?_, fun s t hc hs ht => ?_⟩
  · cases (step_applyMask hc).symm.trans hs
    cases (step_applyMask rfl).symm.trans hu
    exact applyMask_applyMask key s.buf
  · obtain ⟨d, size, rfl, hd⟩ := step_decode_ok hc hs ht
    have hpay := hd.payload_eq_unmask_wire
    refine ⟨rfl, fun hm => ?_, fun hm => ?_⟩
    · have hkey : d.header.maskKey = none := by simpa [Header.masked] using hm
      rwa [hkey] at hpay
    · obtain ⟨key, hkey⟩ : ∃ key, d.header.maskKey = some key := Option.isSome_iff_exists.mp hm
      rw [hkey] at hpay
      exact ⟨key, _, hkey, fun j hj => hd.readByte_key hkey hj, step_applyMask rfl, hpay.symm⟩

/-- Settles O51: the cipher of the empty buffer is the empty buffer, and APPLY_MASK always returns `OK`. -/
theorem maskingEmptyBufferIsNoOp : Obligations.MaskingEmptyBufferIsNoOp := by
  intro s key hc hbuf
  refine ⟨runApplyMask key s, step_applyMask hc, runApplyMask_result key s, ?_⟩
  rw [runApplyMask_buf, hbuf]
  exact maskFrom_nil key 0

end Sys2Proof.Machine

/-! PROOFS. The statement that every step keeps the invariant (spec 10_state.md R18, 43_encoder.md R131, 44_decoder.md R154,
R155), with the lemmas it needs: a delivered frame's count is its payload and a header size, and an encoded frame is one
whole frame of its own mode. -/

namespace Sys2Proof.Machine

/-! ### A delivered frame: header size and payload make the count (44_decoder.md R154) -/

/-- The count is the payload and one of the six header sizes, and the payload is below the length limit. -/
def Decoded.FitsHeader (d : Decoded) : Prop :=
  ∃ masked sel, d.consumed = headerSize masked sel + d.payload.length ∧ d.payload.length < 2 ^ 63

theorem length_take_drop {inp : Bytes} {a n : Nat} (h : a + n ≤ inp.length) : ((inp.drop a).take n).length = n := by
  rw [List.length_take_of_le]
  rw [List.length_drop]
  omega

/-- A payload that stage S3 reads has the header's length, and the count ends behind it. -/
theorem receivePayload_ok {inp : Bytes} {pos : Nat} {h : Header} {d : Decoded} (e : receivePayload inp pos h = .ok d) :
    d.payload.length = h.payloadLength.toNat ∧ d.consumed = pos + h.payloadLength.toNat := by
  rw [receivePayload_eq] at e
  split at e <;> cases e
  next hlen => exact ⟨by rw [unmask_length, length_take_drop (Nat.not_lt.mp hlen)], rfl⟩

theorem receiveWord_fitsHeader {p : Params} {m : Mode} {inp : Bytes} {op : BitVec 4} {c : Ctl} {d : Decoded}
    (h : receiveWord p m inp op c = .ok d) : d.FitsHeader := by
  rw [receiveWord_eq] at h
  split at h
  · cases h
  split at h
  · cases h
  split at h
  · cases h
  next htop =>
    split at h
    · cases h
    split at h
    · cases h
    split at h <;> cases h
    next hlen =>
      have hpay : (receivedFrame op c inp).payload.length = declaredLength c.sel inp := by
        rw [receivedFrame, unmask_length, length_take_drop (Nat.not_lt.mp hlen)]
      exact ⟨c.masked, c.sel, by rw [hpay]; rfl, by rw [hpay]; exact Nat.not_le.mp htop⟩

theorem receiveHeader_fitsHeader {p : Params} {m : Mode} {inp : Bytes} {masked : Bool} {sel : Sel} {form : LenClass}
    {b : Byte0} {n : Len} {key : Option Key} {d : Decoded} (hn : n.toNat < 2 ^ 63)
    (h : receiveHeader p m inp (headerSize masked sel) form b n key = .ok d) : d.FitsHeader := by
  unfold receiveHeader at h
  split at h
  · cases h
  split at h
  · cases h
  split at h
  · cases h
  obtain ⟨hpay, hcons⟩ := receivePayload_ok h
  exact ⟨masked, sel, by rw [hpay, hcons], by rw [hpay]; exact hn⟩

/-- A HEADER row reads its payload behind a header of its format's size, and its length field is at most 63 bits wide. -/
theorem exec_header_size (i : Instr) (h : i.kind = .header) (s : State) : ∃ masked sel form b n key,
    exec i s = .next (s.finishDecode
      (receiveHeader buildParams s.dMode s.wireIn (headerSize masked sel) form b n key)) ∧ n.toNat < 2 ^ 63 := by
  have hwide {w : Nat} (hw : w ≤ 63) (len : BitVec w) : (len.setWidth 64).toNat < 2 ^ 63 :=
    calc (len.setWidth 64).toNat ≤ len.toNat := by rw [BitVec.toNat_setWidth]; exact Nat.mod_le _ _
      _ < 2 ^ w := len.isLt
      _ ≤ 2 ^ 63 := Nat.pow_le_pow_right (by decide) hw
  cases i with
  | f7u b len => exact ⟨false, 0, _, _, _, _, rfl, hwide (by decide) len⟩
  | f7m b len key => exact ⟨true, 0, _, _, _, _, rfl, hwide (by decide) len⟩
  | f16u b len => exact ⟨false, 126, _, _, _, _, rfl, hwide (by decide) len⟩
  | f16m b len key => exact ⟨true, 126, _, _, _, _, rfl, hwide (by decide) len⟩
  | f64u b len => exact ⟨false, 127, _, _, _, _, rfl, hwide (by decide) len⟩
  | f64m b len key => exact ⟨true, 127, _, _, _, _, rfl, hwide (by decide) len⟩
  | _ => cases h

/-- A row of either kind ends a DECODE, whose frame, if there is one, fits its header. -/
theorem exec_fitsHeader (i : Instr) (s : State) :
    ∃ r, exec i s = .next (s.finishDecode r) ∧ ∀ d, r = .ok d → d.FitsHeader := by
  rcases hk : i.kind
  · obtain ⟨o, c, rfl⟩ := Instr.eq_ofOpcode_of_kind hk
    exact ⟨_, exec_ofOpcode o c s, fun _ => receiveWord_fitsHeader⟩
  · obtain ⟨masked, sel, form, b, n, key, e, hn⟩ := exec_header_size i hk s
    exact ⟨_, e, fun _ => receiveHeader_fitsHeader hn⟩

/-! ### An encoded frame is one whole frame (43_encoder.md R131, 44_decoder.md R155) -/

/-- The decoder of one of the two modes accepts the bytes and consumes them all. -/
def IsWholeFrame (out : Bytes) : Prop :=
  ∃ m d, decodeFrame buildParams m out = .ok d ∧ d.consumed = out.length

theorem lenEnc_ext_length (n : Len) : (lenEnc n).2.length = extSize (lenEnc n).1 := by
  cases hc : lenClassOf n with
  | inline =>
    have hn : n.toNat ≤ 125 := (lenClassOf_eq_inline_iff n).mp hc
    rw [lenEnc_of_inline hc]
    refine (extSize_of_le _ ?_).symm
    rw [BitVec.toNat_setWidth]
    exact (Nat.mod_le _ _).trans hn
  | ext16 => rw [lenEnc_of_ext16 hc]; rfl
  | ext64 => rw [lenEnc_of_ext64 hc]; rfl

/-- A frame whose selector and extended bytes are LEN_ENC's declares the length they encode. -/
theorem declaredLength_lenEnc (n : Len) (b0 b1 : Byte) (tail : Bytes) :
    declaredLength (lenEnc n).1 (b0 :: b1 :: ((lenEnc n).2 ++ tail)) = n.toNat := by
  cases hc : lenClassOf n with
  | inline =>
    have hn : n.toNat ≤ 125 := (lenClassOf_eq_inline_iff n).mp hc
    have hsel : (n.setWidth 7).toNat = n.toNat := (BitVec.toNat_setWidth _ _).trans (Nat.mod_eq_of_lt (by omega))
    rw [lenEnc_of_inline hc, declaredLength, hsel, if_pos hn]
  | ext16 =>
    have hn : 125 < n.toNat ∧ n.toNat ≤ 65535 := (lenClassOf_eq_ext16_iff n).mp hc
    have hlow : (n.setWidth 16).toNat = n.toNat := (BitVec.toNat_setWidth _ _).trans (Nat.mod_eq_of_lt (by omega))
    rw [lenEnc_of_ext16 hc, ← hlow]
    conv_rhs => rw [← be16_of_toBe16 (n.setWidth 16), be16_toNat]
    rfl
  | ext64 =>
    rw [lenEnc_of_ext64 hc]
    conv_rhs => rw [← be64_of_toBe64 n, be64_toNat]
    rfl

/-- The operand bits of the BYTE0 row that ENCODE writes for a header (30_encoding.md R52, R53). -/
def Header.ctl (h : Header) : Ctl := ⟨h.fin, h.rsv1, h.rsv2, h.rsv3, h.masked, (lenEnc h.payloadLength).1⟩

/-- A frame is its two fixed bytes, the extended length, and a key field and payload. -/
theorem emitFrame_eq_fixed_ext (h : Header) (pay : Bytes) : ∃ tail,
    emitFrame h pay = packByte0 h.fin h.rsv1 h.rsv2 h.rsv3 h.opcode :: packByte1 h.masked (lenEnc h.payloadLength).1 ::
      ((lenEnc h.payloadLength).2 ++ tail) ∧ tail.length = keySize h.masked + pay.length := by
  rw [emitFrame_eq]
  cases hkey : h.maskKey with
  | none => exact ⟨unmask none pay, by simp [ctlPack], by simp [Header.masked, hkey]⟩
  | some key => exact ⟨toLe32 key ++ unmask (some key) pay, by simp [ctlPack], by simp [Header.masked, hkey]⟩

theorem declaredLength_emitFrame (h : Header) (pay : Bytes) :
    declaredLength h.ctl.sel (emitFrame h pay) = h.payloadLength.toNat := by
  obtain ⟨tail, hout, -⟩ := emitFrame_eq_fixed_ext h pay
  rw [hout]
  exact declaredLength_lenEnc h.payloadLength _ _ tail

theorem emitFrame_length (h : Header) (pay : Bytes) :
    (emitFrame h pay).length = headerSize h.ctl.masked h.ctl.sel + pay.length := by
  obtain ⟨tail, hout, htail⟩ := emitFrame_eq_fixed_ext h pay
  have hext := lenEnc_ext_length h.payloadLength
  rw [hout]
  simp only [List.length_cons, List.length_append, htail, hext, headerSize, Header.ctl]
  omega

/-- DECODE of a frame starts from the row of the header's own operand bits. -/
theorem decodeFrame_emitFrame_eq (p : Params) (m : Mode) (h : Header) (pay : Bytes) :
    decodeFrame p m (emitFrame h pay) = receiveWord p m (emitFrame h pay) h.opcode h.ctl := by
  obtain ⟨tail, hout, -⟩ := emitFrame_eq_fixed_ext h pay
  rw [hout, decodeFrame_cons, opcodeField_packByte0, unpackCtl_pack]
  rfl

/-- The frame of a header that passes every check, with a payload of its length, decodes in the mode its MASK bit meets. -/
theorem decodeFrame_emitFrame {h : Header} {pay : Bytes} (hn : h.payloadLength.toNat < 2 ^ 63)
    (hl : controlLimitsMet h.opcode h.fin h.payloadLength.toNat = true) (hp : pay.length = h.payloadLength.toNat) :
    decodeFrame buildParams (modeOf h.masked) (emitFrame h pay) =
      .ok (receivedFrame h.opcode h.ctl (emitFrame h pay)) := by
  have hmode : modeFault buildParams (modeOf h.masked) h.ctl.masked = none := by
    rw [modeFault_buildParams]; exact if_pos rfl
  have hctl : controlFault buildParams h.opcode h.ctl.fin h.payloadLength = none :=
    (controlFault_none_iff _ _ _).mpr hl
  have hlen := emitFrame_length h pay
  have hext : ¬(emitFrame h pay).length < 2 + extSize h.ctl.sel := by
    rw [hlen, headerSize]; omega
  have hall : ¬(emitFrame h pay).length < headerSize h.ctl.masked h.ctl.sel + h.payloadLength.toNat := by
    omega
  rw [decodeFrame_emitFrame_eq, receiveWord_eq, declaredLength_emitFrame, BitVec.ofNat_toNat, BitVec.setWidth_eq]
  simp only [hmode, hext, Nat.not_le.mpr hn, minimalFault_buildParams, hctl, hall, if_false]

/-- What an encode puts out is one whole frame. -/
theorem encodeFrame_isWholeFrame {h : Header} {pay out : Bytes} (e : encodeFrame buildParams h pay = .ok out) :
    IsWholeFrame out := by
  obtain ⟨hn, hl, hp, rfl⟩ := encodeFrame_ok e
  refine ⟨_, _, decodeFrame_emitFrame hn hl hp, ?_⟩
  rw [emitFrame_length, hp, receivedFrame, declaredLength_emitFrame]

theorem encodeMsg_isWholeFrame {opcode : BitVec 4} {fin : Bool} {key : Option Key} {pay out : Bytes}
    (e : encodeMsg buildParams opcode fin key pay = .ok out) : IsWholeFrame out := by
  unfold encodeMsg at e
  split at e
  · cases e
  · exact encodeFrame_isWholeFrame e

/-! ### The invariant, operation by operation -/

section
variable {s : State} (hi : s.Inv)
include hi

/-- An error changes nothing the invariant speaks of (60_exceptions.md R176). -/
theorem State.raise_inv (k : ErrorKind) : (s.raise k).Inv := hi

/-- A delivery writes the cursor, the count and the payload together. -/
theorem State.finishDecode_inv {r : Except ErrorKind Decoded} (hr : ∀ d, r = .ok d → d.FitsHeader) :
    (s.finishDecode r).Inv := by
  cases r with
  | error e => exact s.raise_inv hi e
  | ok d =>
    obtain ⟨-, -, hout⟩ := hi
    exact ⟨rfl, .inr (hr d rfl), hout⟩

/-- An encode writes `OUT` alone of what the invariant speaks of. -/
theorem State.finishEncode_inv {masked : Bool} {r : Except ErrorKind Bytes}
    (hr : ∀ out, r = .ok out → IsWholeFrame out) : (s.finishEncode masked r).Inv := by
  cases r with
  | error e => exact s.raise_inv hi e
  | ok out =>
    obtain ⟨hpos, hcount, -⟩ := hi
    exact ⟨hpos, hcount, .inr (hr out rfl)⟩

theorem runOpcFromRaw_inv (n : Nat) : (runOpcFromRaw n s).Inv := by
  rcases Nat.lt_or_ge 15 n with hn | hn
  · rw [runOpcFromRaw_of_lt hn]; exact hi
  · rw [runOpcFromRaw_of_le hn]; exact hi

theorem runHdrNew_inv (arg : HeaderArg) : (runHdrNew arg s).Inv := by
  unfold runHdrNew
  split
  · exact s.raise_inv hi _
  · exact hi

theorem runLenDec_inv (f : LenField) : (runLenDec f s).Inv := by
  unfold runLenDec
  split
  · exact s.raise_inv hi _
  · exact hi

theorem step_decode_inv (hc : s.call = some .decode) : ∃ t, step s = .next t ∧ t.Inv := by
  rcases step_decode_cases hc with ⟨i, -, hexec⟩ | ⟨_, -, hraise⟩
  · obtain ⟨r, e, hr⟩ := exec_fitsHeader i s
    exact ⟨_, hexec.trans e, s.finishDecode_inv hi hr⟩
  · exact ⟨_, hraise, s.raise_inv hi _⟩

/-- Every step answers a state with the invariant. After an operation that writes neither the cursor, the count, `POUT` nor
`OUT`, it is what `hi` says, field for field. -/
theorem step_inv : ∃ t, step s = .next t ∧ t.Inv :=
  match hc : s.call with
  | none => ⟨_, step_idle hc, hi⟩
  | some (.opcFromRaw n) => ⟨_, step_opcFromRaw hc, runOpcFromRaw_inv hi n⟩
  | some (.opcToRaw _) => ⟨_, step_opcToRaw hc, hi⟩
  | some .isControl => ⟨_, step_isControl hc, hi⟩
  | some .opcDemux => ⟨_, step_opcDemux hc, hi⟩
  | some (.ctlPack _) => ⟨_, step_ctlPack hc, hi⟩
  | some (.ctlUnpack _ _) => ⟨_, step_ctlUnpack hc, hi⟩
  | some (.hdrNew arg) => ⟨_, step_hdrNew hc, runHdrNew_inv hi arg⟩
  | some .lenClass => ⟨_, step_lenClass hc, hi⟩
  | some .lenEnc => ⟨_, step_lenEnc hc, hi⟩
  | some (.lenDec f) => ⟨_, step_lenDec hc, runLenDec_inv hi f⟩
  | some .keyBytes => ⟨_, step_keyBytes hc, hi⟩
  | some (.keyFromBytes _ _ _ _) => ⟨_, step_keyFromBytes hc, hi⟩
  | some (.applyMask _) => ⟨_, step_applyMask hc, hi⟩
  | some (.applyMaskWide _) => ⟨_, step_applyMaskWide hc, hi⟩
  | some .encode => ⟨_, step_encode hc, s.finishEncode_inv hi fun _ => encodeFrame_isWholeFrame⟩
  | some (.encodeMsg _ _ _) => ⟨_, step_encodeMsg hc, s.finishEncode_inv hi fun _ => encodeMsg_isWholeFrame⟩
  | some .decode => step_decode_inv hi hc

end

/-- Settles O56: DECODE delivers a frame that fits its header, an encode puts out one whole frame, and no other operation
writes what the invariant speaks of. -/
theorem everyStepKeepsInvariant : Obligations.EveryStepKeepsInvariant := by
  intro s t hi hs
  obtain ⟨u, hu, hinv⟩ := step_inv hi
  cases hu.symm.trans hs
  exact hinv

end Sys2Proof.Machine

/-! PROOFS. The statements on the table's rows and their bytes (spec 30_encoding.md sections 1 to 4 and 7): a header as its
fields on the wire, the HEADER row that those fields give, and both directions between rows and bytes. -/

namespace Sys2Proof

/-! ### BYTE0 rows -/

@[simp] theorem Opcode.ofCode_code (o : Opcode) : Opcode.ofCode o.code = o := by cases o <;> rfl

theorem decodeOpcodeRow_encodeCtl (o : Opcode) (c : Ctl) (rest : Bytes) :
    decodeOpcodeRow (encodeCtl o c ++ rest) = .ok (.ofOpcode o c) := by
  simp [encodeCtl, decodeOpcodeRow, unpackCtl_pack]

theorem encodeCtl_unpackCtl (b0 b1 : Byte) : encodeCtl (.ofCode (opcodeField b0)) (unpackCtl b0 b1) = [b0, b1] := by
  have h0 := packByte0_unpackByte0 b0
  have h1 := packByte1_unpack b1
  simpa [encodeCtl, unpackCtl, unpackByte0] using ⟨h0, h1⟩

/-- A BYTE0 row is read from the first two bytes. -/
theorem decodeOpcodeRow_ok {bs : Bytes} {i : Instr} (h : decodeOpcodeRow bs = .ok i) :
    ∃ b0 b1 rest, bs = b0 :: b1 :: rest ∧ i = .ofOpcode (.ofCode (opcodeField b0)) (unpackCtl b0 b1) := by
  match bs with
  | b0 :: b1 :: rest => cases h; exact ⟨b0, b1, rest, rfl, rfl⟩
  | [] | [_] => cases h

end Sys2Proof

namespace Sys2Proof.Machine

/-! ### The fields of a header (30_encoding.md R55 to R58) -/

theorem selForm_of_le {sel : Sel} (h : sel.toNat ≤ 125) : selForm sel = .inline := if_pos h

/-- The extended length bytes of a number behind a selector. -/
def lengthField (sel : Sel) (n : Nat) : Bytes :=
  match selForm sel with
  | .inline => []
  | .ext16 => toBe16 (BitVec.ofNat 16 n)
  | .ext64 => toBe64 (BitVec.ofNat 64 n)

theorem lengthField_of_le {sel : Sel} (h : sel.toNat ≤ 125) (n : Nat) : lengthField sel n = [] := by
  rw [lengthField, selForm_of_le h]

theorem lengthField_126 (n : Nat) : lengthField 126 n = toBe16 (BitVec.ofNat 16 n) := rfl
theorem lengthField_127 (n : Nat) : lengthField 127 n = toBe64 (BitVec.ofNat 64 n) := rfl

/-- The key field: four bytes, or none. -/
def keyField : Option Key → Bytes
  | some key => toLe32 key
  | none => []

/-- A number that a header with this selector can declare, the reserved top bit 0. -/
def FitsSel (sel : Sel) (n : Nat) : Prop :=
  match selForm sel with
  | .inline => n = sel.toNat
  | .ext16 => n < 2 ^ 16
  | .ext64 => n < 2 ^ 63

theorem FitsSel.lt {sel : Sel} {n : Nat} (h : FitsSel sel n) : n < 2 ^ 63 := by
  have := sel.isLt
  unfold FitsSel at h
  split at h <;> omega

theorem fitsSel_declaredLength {sel : Sel} {inp : Bytes} (h : declaredLength sel inp < 2 ^ 63) :
    FitsSel sel (declaredLength sel inp) := by
  rcases sel_cases sel with hs | rfl | rfl
  · rw [FitsSel, selForm_of_le hs]; exact if_pos hs
  · exact declaredLength_lt_of_ext16 _ _ (by decide)
  · exact h

@[simp] theorem lengthField_length (sel : Sel) (n : Nat) : (lengthField sel n).length = extSize sel := by
  rcases sel_cases sel with hs | rfl | rfl
  · rw [lengthField_of_le hs, extSize_of_le _ hs]; rfl
  · rfl
  · rfl

theorem frameKey_isSome (masked : Bool) (sel : Sel) (inp : Bytes) : (frameKey masked sel inp).isSome = masked := by
  cases masked <;> rfl

/-- The extended length bytes of a frame are the length field of the number they declare. -/
theorem drop_two_eq_lengthField_append {sel : Sel} {inp : Bytes} (h : 2 + extSize sel ≤ inp.length) :
    inp.drop 2 = lengthField sel (declaredLength sel inp) ++ inp.drop (2 + extSize sel) := by
  rcases sel_cases sel with hs | rfl | rfl
  · rw [lengthField_of_le hs, extSize_of_le _ hs]; rfl
  · match inp, h with
    | b0 :: b1 :: x0 :: x1 :: rest, _ =>
      have hn : BitVec.ofNat 16 (declaredLength 126 (b0 :: b1 :: x0 :: x1 :: rest)) = be16 x0 x1 := by
        apply BitVec.eq_of_toNat_eq
        rw [BitVec.toNat_ofNat, Nat.mod_eq_of_lt (declaredLength_lt_of_ext16 126 _ (by decide)), be16_toNat]
        rfl
      rw [lengthField_126, hn, toBe16_be16]
      rfl
    | [], h | [_], h | [_, _], h | [_, _, _], h => simp at h
  · match inp, h with
    | b0 :: b1 :: x0 :: x1 :: x2 :: x3 :: x4 :: x5 :: x6 :: x7 :: rest, _ =>
      have hn : BitVec.ofNat 64
          (declaredLength 127 (b0 :: b1 :: x0 :: x1 :: x2 :: x3 :: x4 :: x5 :: x6 :: x7 :: rest)) =
            be64 x0 x1 x2 x3 x4 x5 x6 x7 := by
        apply BitVec.eq_of_toNat_eq
        rw [ofNat_declaredLength_toNat, be64_toNat]
        rfl
      rw [lengthField_127, hn, toBe64_be64]
      rfl
    | [], h | [_], h | [_, _], h | [_, _, _], h | [_, _, _, _], h | [_, _, _, _, _], h | [_, _, _, _, _, _], h
    | [_, _, _, _, _, _, _], h | [_, _, _, _, _, _, _, _], h | [_, _, _, _, _, _, _, _, _], h => simp at h

theorem toLe32_injective {k k' : Key} (h : toLe32 k = toLe32 k') : k = k' := by
  simp only [toLe32, List.cons.injEq, and_true] at h
  obtain ⟨h0, h1, h2, h3⟩ := h
  rw [← le32_keyBytes k, ← le32_keyBytes k', h0, h1, h2, h3]

/-- Behind the two fixed bytes a whole header is its length field and its key field. -/
theorem drop_two_eq_fields_append {masked : Bool} {sel : Sel} {inp : Bytes} (h : headerSize masked sel ≤ inp.length) :
    inp.drop 2 = lengthField sel (declaredLength sel inp) ++
      (keyField (frameKey masked sel inp) ++ inp.drop (headerSize masked sel)) := by
  have hext : 2 + extSize sel ≤ inp.length := (Nat.le_add_right _ _).trans h
  cases masked with
  | false => exact drop_two_eq_lengthField_append hext
  | true => exact (drop_two_eq_lengthField_append hext).trans (congrArg _ (drop_eq_wireKey_append h))

/-- A header carries the key its key field was written from. -/
theorem frameKey_fields (sel : Sel) (n : Nat) (key : Option Key) (b0 b1 : Byte) (tail : Bytes) :
    frameKey key.isSome sel (b0 :: b1 :: (lengthField sel n ++ (keyField key ++ tail))) = key := by
  cases key with
  | none => rfl
  | some key =>
    have hdrop : (b0 :: b1 :: (lengthField sel n ++ (toLe32 key ++ tail))).drop (2 + extSize sel) = toLe32 key ++ tail := by
      rw [Nat.add_comm, ← List.drop_drop]
      simp
    have hkey := drop_eq_wireKey_append (inp := b0 :: b1 :: (lengthField sel n ++ (toLe32 key ++ tail)))
      (a := 2 + extSize sel)
      (by simp only [List.length_cons, List.length_append, lengthField_length, toLe32_length]; omega)
    rw [hdrop] at hkey
    exact congrArg some (toLe32_injective (List.append_inj_left hkey rfl)).symm

/-! ### The HEADER row of a header -/

/-- The HEADER row with these fields: the format is the selector's and the key's (30_encoding.md R51). -/
def headerRow (b : Byte0) (sel : Sel) (n : Nat) (key : Option Key) : Instr :=
  match selForm sel, key with
  | .inline, none => .f7u b sel
  | .inline, some key => .f7m b sel key
  | .ext16, none => .f16u b (BitVec.ofNat 16 n)
  | .ext16, some key => .f16m b (BitVec.ofNat 16 n) key
  | .ext64, none => .f64u b (BitVec.ofNat 63 n)
  | .ext64, some key => .f64m b (BitVec.ofNat 63 n) key

theorem headerRow_inline (b : Byte0) {sel : Sel} (h : sel.toNat ≤ 125) (n : Nat) (key : Option Key) :
    headerRow b sel n key = key.elim (.f7u b sel) (.f7m b sel) := by
  cases key <;> simp [headerRow, selForm_of_le h]

theorem headerRow_ext16 (b : Byte0) (n : Nat) (key : Option Key) :
    headerRow b 126 n key = key.elim (.f16u b (BitVec.ofNat 16 n)) (.f16m b (BitVec.ofNat 16 n)) := by
  cases key <;> rfl

theorem headerRow_ext64 (b : Byte0) (n : Nat) (key : Option Key) :
    headerRow b 127 n key = key.elim (.f64u b (BitVec.ofNat 63 n)) (.f64m b (BitVec.ofNat 63 n)) := by
  cases key <;> rfl

/-- Every well-formed HEADER row is the row of a selector that declares its length. -/
theorem exists_eq_headerRow {i : Instr} (hk : i.kind = .header) (hw : i.wf = true) :
    ∃ b sel n key, FitsSel sel n ∧ i = headerRow b sel n key := by
  have hinline {len : BitVec 7} (h : inlineLengthOk len = true) : len.toNat ≤ 125 := of_decide_eq_true h
  have hfits {len : BitVec 7} (h : len.toNat ≤ 125) : FitsSel len len.toNat := by rw [FitsSel, selForm_of_le h]
  cases i with
  | f7u b len => exact ⟨b, len, len.toNat, none, hfits (hinline hw), by rw [headerRow_inline b (hinline hw)]; rfl⟩
  | f7m b len key =>
    exact ⟨b, len, len.toNat, some key, hfits (hinline hw), by rw [headerRow_inline b (hinline hw)]; rfl⟩
  | f16u b len => exact ⟨b, 126, len.toNat, none, len.isLt, by rw [headerRow_ext16]; simp⟩
  | f16m b len key => exact ⟨b, 126, len.toNat, some key, len.isLt, by rw [headerRow_ext16]; simp⟩
  | f64u b len => exact ⟨b, 127, len.toNat, none, len.isLt, by rw [headerRow_ext64]; simp⟩
  | f64m b len key => exact ⟨b, 127, len.toNat, some key, len.isLt, by rw [headerRow_ext64]; simp⟩
  | _ => cases hk

theorem headerRow_kind_wf (b : Byte0) (sel : Sel) (n : Nat) (key : Option Key) :
    (headerRow b sel n key).kind = .header ∧ (headerRow b sel n key).wf = true := by
  rcases sel_cases sel with hs | rfl | rfl
  · rw [headerRow_inline b hs]
    cases key <;> exact ⟨rfl, decide_eq_true hs⟩
  · rw [headerRow_ext16]; cases key <;> exact ⟨rfl, rfl⟩
  · rw [headerRow_ext64]; cases key <;> exact ⟨rfl, rfl⟩

/-- A HEADER row is encoded field by field. -/
theorem encode_headerRow (b : Byte0) {sel : Sel} {n : Nat} (h : FitsSel sel n) (key : Option Key) :
    encode (headerRow b sel n key) = encodeFixed b key.isSome sel ++ (lengthField sel n ++ keyField key) := by
  rcases sel_cases sel with hs | rfl | rfl
  · rw [headerRow_inline b hs, lengthField_of_le hs]
    cases key <;> rfl
  · rw [headerRow_ext16]
    cases key <;> rfl
  · have hn : (BitVec.ofNat 63 n).setWidth 64 = BitVec.ofNat 64 n := by
      apply BitVec.eq_of_toNat_eq
      have hlt : n < 2 ^ 63 := h
      simp only [BitVec.toNat_setWidth, BitVec.toNat_ofNat]
      omega
    rw [headerRow_ext64, lengthField_127, ← hn]
    cases key with
    | none => exact congrArg _ (List.append_nil _).symm
    | some key => rfl

/-- The HEADER row of a header whose length field is whole, up to the key. -/
theorem decodeHeaderRow_lengthField (b0 : Byte) {b1 : Byte} {n : Nat} (h : FitsSel (selField b1) n) (tail : Bytes) :
    decodeHeaderRow (b0 :: b1 :: (lengthField (selField b1) n ++ tail)) =
      if maskField b1 then decodeMaskedRow (fun key => headerRow (unpackByte0 b0) (selField b1) n (some key)) tail
      else .ok (headerRow (unpackByte0 b0) (selField b1) n none) := by
  rcases sel_cases (selField b1) with hs | hs | hs
  · simp only [headerRow_inline _ hs, lengthField_of_le hs]
    simp [decodeHeaderRow, hs]
  · simp only [hs, headerRow_ext16, lengthField_126]
    simp [decodeHeaderRow, hs, toBe16, be16_of_toBe16]
  · rw [hs] at h
    have htop : (BitVec.ofNat 64 n)[63] = false := by
      have hlt : n < 2 ^ 63 := h
      have h63 := (getLsbD_63_iff (BitVec.ofNat 64 n)).not.mpr (by rw [BitVec.toNat_ofNat]; omega)
      simpa using h63
    have hn : (BitVec.ofNat 64 n).setWidth 63 = BitVec.ofNat 63 n := BitVec.setWidth_ofNat_of_le (by decide) n
    simp only [hs, headerRow_ext64, lengthField_127]
    simp [decodeHeaderRow, hs, toBe64, be64_of_toBe64, htop, hn]

theorem decodeMaskedRow_toLe32 (row : Key → Instr) (key : Key) (rest : Bytes) :
    decodeMaskedRow row (toLe32 key ++ rest) = .ok (row key) := by
  simp [decodeMaskedRow, decodeKey, toLe32, le32_keyBytes]

/-- The HEADER row of a whole header. -/
theorem decodeHeaderRow_fields (b0 : Byte) {b1 : Byte} {n : Nat} {key : Option Key} (h : FitsSel (selField b1) n)
    (hk : key.isSome = maskField b1) (tail : Bytes) :
    decodeHeaderRow (b0 :: b1 :: (lengthField (selField b1) n ++ (keyField key ++ tail))) =
      .ok (headerRow (unpackByte0 b0) (selField b1) n key) := by
  rw [decodeHeaderRow_lengthField b0 h, ← hk]
  cases key with
  | none => rfl
  | some key => exact decodeMaskedRow_toLe32 (fun key => headerRow _ _ n (some key)) key tail

/-- Settles O2: a BYTE0 row by its two bytes, a HEADER row by its fields. -/
theorem everyRowDecodesFromItsEncoding : Obligations.EveryRowDecodesFromItsEncoding := by
  intro i rest hw
  cases hk : i.kind with
  | byte0 =>
    obtain ⟨o, c, rfl⟩ := Instr.eq_ofOpcode_of_kind hk
    rw [encode_ofOpcode]
    exact decodeOpcodeRow_encodeCtl o c rest
  | header =>
    obtain ⟨b, sel, n, key, hfit, rfl⟩ := exists_eq_headerRow hk hw
    have hrow := decodeHeaderRow_fields (packByte0 b.fin b.rsv1 b.rsv2 b.rsv3 b.opcode)
      (b1 := packByte1 key.isSome sel) (n := n) (key := key) (by simpa using hfit) (by simp) rest
    simpa [decodeRow, encode_headerRow b hfit, encodeFixed] using hrow

/-- A header is its two fixed bytes and what is behind them. -/
theorem encodeFixed_unpack (b0 b1 : Byte) : encodeFixed (unpackByte0 b0) (maskField b1) (selField b1) = [b0, b1] := by
  rw [encodeFixed, packByte0_unpackByte0, packByte1_unpack]

theorem decodeMaskedRow_short (row : Key → Instr) {bs : Bytes} (h : bs.length < 4) :
    decodeMaskedRow row bs = .error .headerCutShort := by
  match bs, h with
  | [], _ | [_], _ | [_, _], _ | [_, _, _], _ => rfl
  | _ :: _ :: _ :: _ :: _, h => simp only [List.length_cons] at h; omega

/-- An extended length that is cut short gives no HEADER row. -/
theorem decodeHeaderRow_short (b0 : Byte) {b1 : Byte} {rest : Bytes} (h : rest.length < extSize (selField b1)) :
    decodeHeaderRow (b0 :: b1 :: rest) = .error .headerCutShort := by
  rcases sel_cases (selField b1) with hs | hs | hs
  · rw [extSize_of_le _ hs] at h; omega
  · rw [hs] at h
    match rest, h with
    | [], _ | [_], _ => simp [decodeHeaderRow, hs]
    | _ :: _ :: _, h => simp at h
  · rw [hs] at h
    match rest, h with
    | [], _ | [_], _ | [_, _], _ | [_, _, _], _ | [_, _, _, _], _ | [_, _, _, _, _], _ | [_, _, _, _, _, _], _
    | [_, _, _, _, _, _, _], _ => simp [decodeHeaderRow, hs]
    | _ :: _ :: _ :: _ :: _ :: _ :: _ :: _ :: _, h => simp only [List.length_cons, extSize_127] at h; omega

/-- The declared length has the reserved top bit set in one case: selector 127 and bit 7 of the first extended byte. -/
theorem declaredLength_topBit_iff (b0 b1 : Byte) (sel : Sel) (rest : Bytes) :
    2 ^ 63 ≤ declaredLength sel (b0 :: b1 :: rest) ↔ sel = 127 ∧ 128 ≤ byteNat rest 0 := by
  have hlt := byteNat_lt (b0 :: b1 :: rest)
  rcases sel_cases sel with hs | rfl | rfl
  · have hne : sel ≠ 127 := by rintro rfl; revert hs; decide
    simp only [declaredLength, hs, if_true, hne, false_and, iff_false]
    omega
  · have := declaredLength_lt_of_ext16 126 (b0 :: b1 :: rest) (by decide)
    simp only [show (126 : Sel) ≠ 127 by decide, false_and, iff_false]
    omega
  · have h3 := hlt 3; have h4 := hlt 4; have h5 := hlt 5; have h6 := hlt 6; have h7 := hlt 7
    have h8 := hlt 8; have h9 := hlt 9
    have h2 : byteNat (b0 :: b1 :: rest) 2 = byteNat rest 0 := rfl
    simp only [declaredLength, show ¬(127 : Sel).toNat ≤ 125 by decide, show ¬(127 : Sel).toNat = 126 by decide,
      if_false, h2, true_and]
    omega

/-- With the eight extended bytes there, the reserved top bit is refused. -/
theorem decodeHeaderRow_topBit (b0 : Byte) {b1 : Byte} {rest : Bytes} (hs : selField b1 = 127) (hlen : 8 ≤ rest.length)
    (htop : 128 ≤ byteNat rest 0) : decodeHeaderRow (b0 :: b1 :: rest) = .error .reservedTopBit := by
  match rest, hlen, htop with
  | x0 :: x1 :: x2 :: x3 :: x4 :: x5 :: x6 :: x7 :: rest, _, htop =>
    have hbit : x0.getLsbD 7 = true := (getLsbD_7_iff x0).mpr htop
    simp [decodeHeaderRow, hs, ← hbit]
  | [], h, _ | [_], h, _ | [_, _], h, _ | [_, _, _], h, _ | [_, _, _, _], h, _ | [_, _, _, _, _], h, _
  | [_, _, _, _, _, _], h, _ | [_, _, _, _, _, _, _], h, _ => simp at h

/-- A header whose key is cut short gives no HEADER row. -/
theorem decodeHeaderRow_keyShort (b0 : Byte) {b1 : Byte} {rest : Bytes} (hext : extSize (selField b1) ≤ rest.length)
    (htop : declaredLength (selField b1) (b0 :: b1 :: rest) < 2 ^ 63)
    (hkey : rest.length + 2 < headerSize (maskField b1) (selField b1)) :
    decodeHeaderRow (b0 :: b1 :: rest) = .error .headerCutShort := by
  have hm : maskField b1 = true := by
    by_contra hm
    rw [headerSize, Bool.eq_false_of_not_eq_true hm, keySize_false] at hkey
    omega
  rw [headerSize, hm, keySize_true] at hkey
  have hrest : rest = _ := drop_two_eq_lengthField_append (sel := selField b1) (inp := b0 :: b1 :: rest)
    (by simp only [List.length_cons]; omega)
  have htail : ((b0 :: b1 :: rest).drop (2 + extSize (selField b1))).length < 4 := by
    simp only [List.length_drop, List.length_cons]; omega
  have hrow := decodeHeaderRow_lengthField b0 (fitsSel_declaredLength htop)
    ((b0 :: b1 :: rest).drop (2 + extSize (selField b1)))
  rwa [← hrest, hm, if_pos rfl, decodeMaskedRow_short _ htail] at hrow

/-- A whole legal header gives the HEADER row of its fields. -/
theorem decodeHeaderRow_whole (b0 : Byte) {b1 : Byte} {rest : Bytes}
    (htop : declaredLength (selField b1) (b0 :: b1 :: rest) < 2 ^ 63)
    (hlen : headerSize (maskField b1) (selField b1) ≤ rest.length + 2) :
    decodeHeaderRow (b0 :: b1 :: rest) =
      .ok (headerRow (unpackByte0 b0) (selField b1) (declaredLength (selField b1) (b0 :: b1 :: rest))
        (frameKey (maskField b1) (selField b1) (b0 :: b1 :: rest))) := by
  have hrest : rest = _ := drop_two_eq_fields_append (inp := b0 :: b1 :: rest) hlen
  have hrow := decodeHeaderRow_fields b0 (fitsSel_declaredLength htop)
    (frameKey_isSome (maskField b1) (selField b1) (b0 :: b1 :: rest))
    ((b0 :: b1 :: rest).drop (headerSize (maskField b1) (selField b1)))
  rwa [← hrest] at hrow

/-- The HEADER decoder check by check: extended length, reserved top bit, key. -/
theorem decodeHeaderRow_eq (b0 b1 : Byte) (rest : Bytes) :
    decodeHeaderRow (b0 :: b1 :: rest) =
      if rest.length < extSize (selField b1) then .error .headerCutShort
      else if selField b1 = 127 ∧ 128 ≤ byteNat rest 0 then .error .reservedTopBit
      else if rest.length + 2 < headerSize (maskField b1) (selField b1) then .error .headerCutShort
      else .ok (headerRow (unpackByte0 b0) (selField b1) (declaredLength (selField b1) (b0 :: b1 :: rest))
        (frameKey (maskField b1) (selField b1) (b0 :: b1 :: rest))) := by
  split
  next hext => exact decodeHeaderRow_short b0 hext
  next hext =>
  split
  next htop =>
    rw [htop.1, extSize_127] at hext
    exact decodeHeaderRow_topBit b0 htop.1 (Nat.not_lt.mp hext) htop.2
  next htop =>
  have hlegal : declaredLength (selField b1) (b0 :: b1 :: rest) < 2 ^ 63 :=
    Nat.not_le.mp ((declaredLength_topBit_iff b0 b1 _ rest).not.mpr htop)
  split
  next hkey => exact decodeHeaderRow_keyShort b0 (Nat.not_lt.mp hext) hlegal hkey
  next hkey => exact decodeHeaderRow_whole b0 hlegal (Nat.not_lt.mp hkey)

/-- What a HEADER row is read from: a whole legal header. -/
theorem decodeHeaderRow_ok {bs : Bytes} {i : Instr} (h : decodeHeaderRow bs = .ok i) :
    ∃ b0 b1 rest, bs = b0 :: b1 :: rest ∧ headerSize (maskField b1) (selField b1) ≤ bs.length ∧
      declaredLength (selField b1) bs < 2 ^ 63 ∧
      i = headerRow (unpackByte0 b0) (selField b1) (declaredLength (selField b1) bs)
        (frameKey (maskField b1) (selField b1) bs) := by
  match bs with
  | b0 :: b1 :: rest =>
    rw [decodeHeaderRow_eq] at h
    split at h
    · cases h
    split at h
    · cases h
    next htop =>
      split at h <;> cases h
      next hlen =>
        exact ⟨b0, b1, rest, rfl, Nat.not_lt.mp hlen,
          Nat.not_le.mp ((declaredLength_topBit_iff b0 b1 _ rest).not.mpr htop), rfl⟩
  | [] | [_] => cases h

/-- Settles O3: no bit of the two fixed bytes is dropped, and behind them stand the length and key fields. -/
theorem decodedRowSpellsItsBytes : Obligations.DecodedRowSpellsItsBytes := by
  intro k bs i h
  cases k with
  | byte0 =>
    obtain ⟨b0, b1, rest, rfl, rfl⟩ := decodeOpcodeRow_ok h
    exact ⟨Instr.kind_ofOpcode _ _, Instr.wf_ofOpcode _ _, rest, by rw [encode_ofOpcode, encodeCtl_unpackCtl]; rfl⟩
  | header =>
    obtain ⟨b0, b1, rest, rfl, hlen, htop, rfl⟩ := decodeHeaderRow_ok h
    refine ⟨(headerRow_kind_wf _ _ _ _).1, (headerRow_kind_wf _ _ _ _).2,
      (b0 :: b1 :: rest).drop (headerSize (maskField b1) (selField b1)), ?_⟩
    rw [encode_headerRow _ (fitsSel_declaredLength htop), frameKey_isSome, encodeFixed_unpack, List.append_assoc,
      List.append_assoc, ← drop_two_eq_fields_append hlen]
    rfl

/-- Settles O5: by the HEADER decoder's checks; only a selector of 127 leaves room for the reserved top bit. -/
theorem headerRowIsAWholeLegalHeader : Obligations.HeaderRowIsAWholeLegalHeader := by
  intro b0 b1 rest
  have hsize : 2 + extSize (selField b1) ≤ headerSize (maskField b1) (selField b1) := Nat.le_add_right _ _
  rw [decodeHeaderRow_eq]
  by_cases hext : rest.length < extSize (selField b1)
  · have hcut : ¬headerSize (maskField b1) (selField b1) ≤ rest.length + 2 := by omega
    have hno : ¬(selField b1 = 127 ∧ 8 ≤ rest.length ∧ 128 ≤ byteNat rest 0) := by
      rintro ⟨hs, hlen, -⟩
      rw [hs, extSize_127] at hext
      omega
    simp only [hext, if_true, hcut, false_and, hno]
    simp
  by_cases htop : selField b1 = 127 ∧ 128 ≤ byteNat rest 0
  · rw [htop.1, extSize_127] at hext
    simp [htop, hext, Nat.not_lt.mp hext]
  · have hno : ¬(selField b1 = 127 ∧ 8 ≤ rest.length ∧ 128 ≤ byteNat rest 0) := fun h => htop ⟨h.1, h.2.2⟩
    by_cases hkey : rest.length + 2 < headerSize (maskField b1) (selField b1)
    · simp only [hext, htop, hkey, hno, Nat.not_le.mpr hkey, if_true, if_false]
      simp
    · simp only [hext, htop, hkey, hno, Nat.not_lt.mp hkey, if_false]
      simp

/-- Settles O1: each word by computation of its fields. -/
theorem wordsDecodeToTheirRows : Obligations.WordsDecodeToTheirRows := by
  refine ⟨?_, ?_, ?_, ?_, ?_, ?_, ?_⟩ <;> decide

end Sys2Proof.Machine

/-! PROOFS. The statements on a DECODE step and on the rows' meaning (spec 44_decoder.md R146 to R153, 40_header_model.md
section 4, 60_exceptions.md R174): every row a frame matches means the decoder's function of `IN` and the mode, and a
delivered frame is the one the statements write out. -/

namespace Sys2Proof.Machine

/-! ### Both rows of a frame mean its DECODE -/

/-- A HEADER row by its fields: the payload stands behind a header of their size. -/
theorem exec_headerRow (b : Byte0) {sel : Sel} {n : Nat} (h : FitsSel sel n) (key : Option Key) (s : State) :
    exec (headerRow b sel n key) s = .next (s.finishDecode (receiveHeader buildParams s.dMode s.wireIn
      (headerSize key.isSome sel) (selForm sel) b (BitVec.ofNat 64 n) key)) := by
  have hwiden {w : Nat} (hw : n < 2 ^ w) : (BitVec.ofNat w n).setWidth 64 = BitVec.ofNat 64 n := by
    apply BitVec.eq_of_toNat_eq
    rw [BitVec.toNat_setWidth, BitVec.toNat_ofNat, BitVec.toNat_ofNat, Nat.mod_eq_of_lt hw]
  rcases sel_cases sel with hs | rfl | rfl
  · have hn : n = sel.toNat := by rwa [FitsSel, selForm_of_le hs] at h
    rw [headerRow_inline b hs, hn, headerSize, extSize_of_le _ hs, selForm_of_le hs, BitVec.ofNat_toNat]
    cases key <;> rfl
  · rw [headerRow_ext16, ← hwiden (w := 16) h]
    cases key <;> rfl
  · rw [headerRow_ext64, ← hwiden (w := 63) h]
    cases key <;> rfl

/-- Once a legal header is whole, the checks that are left are the same, read from the row or from the bytes. -/
theorem receiveHeader_eq_receiveWord (p : Params) (m : Mode) {inp : Bytes} (b : Byte0) {masked : Bool} {sel : Sel}
    (hlen : headerSize masked sel ≤ inp.length) (htop : declaredLength sel inp < 2 ^ 63) :
    receiveHeader p m inp (headerSize masked sel) (selForm sel) b (BitVec.ofNat 64 (declaredLength sel inp))
        (frameKey masked sel inp) =
      receiveWord p m inp b.opcode ⟨b.fin, b.rsv1, b.rsv2, b.rsv3, masked, sel⟩ := by
  have hext : ¬inp.length < 2 + extSize sel := Nat.not_lt.mpr ((Nat.le_add_right _ _).trans hlen)
  simp only [receiveHeader, receiveWord_eq, frameKey_isSome, hext, Nat.not_le.mpr htop, if_false, receivePayload_eq,
    wireHeader, ofNat_declaredLength_toNat]
  rfl

theorem exec_of_decodeRow {k : RowKind} {i : Instr} {s : State} (h : decodeRow k s.wireIn = .ok i) :
    exec i s = .next (s.finishDecode (decodeFrame buildParams s.dMode s.wireIn)) := by
  cases k with
  | byte0 =>
    obtain ⟨b0, b1, rest, hin, rfl⟩ := decodeOpcodeRow_ok h
    rw [exec_ofOpcode, Opcode.code_ofCode, hin, decodeFrame_cons]
  | header =>
    obtain ⟨b0, b1, rest, hin, hlen, htop, rfl⟩ := decodeHeaderRow_ok h
    rw [exec_headerRow _ (fitsSel_declaredLength htop), frameKey_isSome, receiveHeader_eq_receiveWord _ _ _ hlen htop,
      hin, decodeFrame_cons]
    rfl

/-- `step` runs one of the two rows of a frame, and rejects fewer than two bytes only. -/
theorem decodeInstr_cases (bs : Bytes) :
    (∃ k i, decodeInstr bs = .ok i ∧ decodeRow k bs = .ok i) ∨ bs.length < 2 ∧ ∃ e, decodeInstr bs = .error e := by
  match bs with
  | [] | [_] => exact .inr ⟨by simp, _, rfl⟩
  | b0 :: b1 :: rest =>
    left
    by_cases hb : (maskField b1 || decide (125 < (selField b1).toNat)) = true
    · cases hrow : decodeHeaderRow (b0 :: b1 :: rest) with
      | ok i => exact ⟨.header, i, by simp only [decodeInstr, hb, if_true, hrow], hrow⟩
      | error e => exact ⟨.byte0, _, by simp only [decodeInstr, hb, if_true, hrow]; rfl, rfl⟩
    · exact ⟨.byte0, _, by simp only [decodeInstr, hb]; rfl, rfl⟩

/-- A DECODE step is the decoder's function of `IN` and the mode. -/
theorem step_decode {s : State} (hc : s.call = some .decode) :
    step s = .next (s.finishDecode (decodeFrame buildParams s.dMode s.wireIn)) := by
  rcases decodeInstr_cases s.wireIn with ⟨k, i, hi, hrow⟩ | ⟨hlen, e, he⟩
  · rcases step_decode_cases hc with ⟨j, hj, hstep⟩ | ⟨e, he, -⟩
    · cases hi.symm.trans hj
      rw [hstep, exec_of_decodeRow hrow]
    · cases hi.symm.trans he
  · rcases step_decode_cases hc with ⟨j, hj, -⟩ | ⟨-, -, hstep⟩
    · cases he.symm.trans hj
    · rw [hstep, decodeFrame_short _ _ hlen, State.finishDecode_error]

/-- Settles O6: the case of a decoded row among those of a DECODE step. -/
theorem stepRunsTheDecodedRow : Obligations.StepRunsTheDecodedRow := by
  intro s i hc hi
  rcases step_decode_cases hc with ⟨j, hj, hstep⟩ | ⟨e, he, -⟩
  · cases hi.symm.trans hj
    exact hstep
  · cases hi.symm.trans he

/-- Settles O7: either row of the frame means the decoder's function, and so does the step. -/
theorem stepIsExecOfEitherRow : Obligations.StepIsExecOfEitherRow :=
  fun _ _ _ hc hrow => (step_decode hc).trans (exec_of_decodeRow hrow).symm

/-- Settles O8: the delivery of the decoder's function, field by field. -/
theorem stepDecodeIsDecodeFrame : Obligations.StepDecodeIsDecodeFrame := by
  intro s hc
  rw [step_decode hc]
  cases decodeFrame buildParams s.dMode s.wireIn <;> rfl

/-- Settles O22: CTL_UNPACK's fields are the operand bits of the BYTE0 row. -/
theorem fixedHeaderNeedsBothBytes : Obligations.FixedHeaderNeedsBothBytes := by
  intro s hc
  refine ⟨fun hlen => ?_, fun b0 b1 rest hin => ?_⟩
  · rw [step_decode hc, decodeFrame_short _ _ hlen]
    rfl
  · have hctl : (⟨(ctlUnpack s.h b0 b1).fin, (ctlUnpack s.h b0 b1).rsv1, (ctlUnpack s.h b0 b1).rsv2,
        (ctlUnpack s.h b0 b1).rsv3, (ctlUnpack s.h b0 b1).masked, selField b1⟩ : Ctl) = unpackCtl b0 b1 := by
      rw [ctlUnpack_masked]; rfl
    have hrow : decodeRow .byte0 s.wireIn = .ok (.ofOpcode (.ofCode (opcodeField b0)) (unpackCtl b0 b1)) := by
      rw [hin]; rfl
    rw [hctl]
    exact stepIsExecOfEitherRow s .byte0 _ hc hrow

/-! ### A delivered frame as the statements write it -/

/-- Delivering a frame whose payload stands whole in `IN`. -/
theorem State.deliver_eq_received (s : State) (h : Header) (size : Nat)
    (hlen : size + h.payloadLength.toNat ≤ s.wireIn.length) :
    s.deliver ⟨h, unmask h.maskKey ((s.wireIn.drop size).take h.payloadLength.toNat), size + h.payloadLength.toNat⟩ =
      s.received h size := by
  simp only [State.deliver, State.done, State.received, plainPayload_eq_unmask, unmask_length, length_take_drop hlen,
    phaseAfter]

theorem deliver_receivedFrame (o : Opcode) (c : Ctl) (s : State)
    (hlen : headerSize c.masked c.sel + declaredLength c.sel s.wireIn ≤ s.wireIn.length) :
    s.deliver (receivedFrame o.code c s.wireIn) =
      s.received (byte0Header o.code.toNat c s.wireIn) (headerSize c.masked c.sel) := by
  have hn : (byte0Header o.code.toNat c s.wireIn).payloadLength.toNat = declaredLength c.sel s.wireIn :=
    ofNat_declaredLength_toNat _ _
  have hcode : BitVec.ofNat 4 o.code.toNat = o.code := by simp
  rw [← State.deliver_eq_received _ _ _ (by rw [hn]; exact hlen), hn]
  simp only [receivedFrame, receivedHeader, wireHeader, byte0Header, hcode]

/-- The last check of a DECODE: is the whole frame there. -/
theorem State.finishDecode_receivedFrame (o : Opcode) (c : Ctl) (s : State) :
    s.finishDecode (if s.wireIn.length < headerSize c.masked c.sel + declaredLength c.sel s.wireIn then
        .error .incomplete else .ok (receivedFrame o.code c s.wireIn)) =
      if s.wireIn.length < headerSize c.masked c.sel + declaredLength c.sel s.wireIn then s.failed .incomplete
      else s.received (byte0Header o.code.toNat c s.wireIn) (headerSize c.masked c.sel) := by
  split
  · rfl
  next hlen => exact deliver_receivedFrame o c s (Nat.not_lt.mp hlen)

theorem isControlCode_code (o : Opcode) : isControlCode o.code = true ↔ o = .close ∨ o = .ping ∨ o = .pong := by
  cases o <;> decide

/-- The control checks of a build at its defaults, as the two that DECODE makes. -/
theorem controlFault_buildParams (op : BitVec 4) (fin : Bool) (n : Len) :
    controlFault buildParams op fin n =
      if isControlCode op = true then
        if 125 < n.toNat then some .invalidLength else if fin = false then some .protocolError else none
      else none := by
  have hc : buildParams.checkControlFin = true := rfl
  cases h : isControlCode op <;> simp [controlFault, h, hc]

/-- Settles O17: the decoder's chain of checks, with the mode and control checks at the build's parameters. -/
theorem byteRowChecksInStreamOrder : Obligations.ByteRowChecksInStreamOrder := by
  intro o c s
  rw [exec_ofOpcode, receiveWord_eq, modeFault_buildParams]
  congr 1
  by_cases hmode : s.dMode = modeOf c.masked
  case neg => simp only [hmode, ne_eq, not_false_eq_true, if_true, if_false]; rfl
  simp only [hmode, ne_eq, not_true_eq_false, if_true, if_false]
  by_cases hext : s.wireIn.length < 2 + extSize c.sel
  · simp only [hext, if_true]; rfl
  by_cases htop : 2 ^ 63 ≤ declaredLength c.sel s.wireIn
  · simp only [hext, htop, if_true, if_false]; rfl
  simp only [hext, htop, if_false, minimalFault_buildParams, controlFault_buildParams, isControlCode_code,
    ofNat_declaredLength_toNat]
  by_cases hctl : o = .close ∨ o = .ping ∨ o = .pong
  case neg => simp only [hctl, if_false, State.finishDecode_receivedFrame]
  simp only [hctl, if_true]
  by_cases hlong : 125 < declaredLength c.sel s.wireIn
  · simp only [hlong, if_true]; rfl
  by_cases hfin : c.fin = false
  · simp only [hlong, hfin, if_true, if_false]; rfl
  · simp only [hlong, hfin, Bool.true_eq_false, if_false, State.finishDecode_receivedFrame]

/-! ### The rows complete -/

/-- A BYTE0 row completes on a whole frame, a control row within its limits. -/
theorem exec_ofOpcode_whole {o : Opcode} {c : Ctl} {s : State} (hmode : s.dMode = modeOf c.masked)
    (hwhole : wholeFrame c s.wireIn = true)
    (hctl : o = .close ∨ o = .ping ∨ o = .pong → c.fin = true ∧ declaredLength c.sel s.wireIn ≤ 125) :
    exec (.ofOpcode o c) s =
      .next (s.received (byte0Header o.code.toNat c s.wireIn) (headerSize c.masked c.sel)) := by
  obtain ⟨hlen, htop⟩ : headerSize c.masked c.sel + declaredLength c.sel s.wireIn ≤ s.wireIn.length ∧
      declaredLength c.sel s.wireIn < 2 ^ 63 := by simpa [wholeFrame] using hwhole
  have hext : ¬s.wireIn.length < 2 + extSize c.sel := by
    rw [headerSize] at hlen; omega
  rw [byteRowChecksInStreamOrder]
  simp only [hmode, ne_eq, not_true_eq_false, hext, Nat.not_le.mpr htop, Nat.not_lt.mpr hlen, if_false]
  by_cases hc : o = .close ∨ o = .ping ∨ o = .pong
  · obtain ⟨hfin, hlimit⟩ := hctl hc
    simp only [hc, hfin, Nat.not_lt.mpr hlimit, Bool.true_eq_false, if_true, if_false]
  · simp only [hc, if_false]

/-- Settles O11: no data row is a control row. -/
theorem dataRowsComplete : Obligations.DataRowsComplete := fun _ _ hmode hwhole =>
  ⟨exec_ofOpcode_whole (o := .continuation) hmode hwhole (by simp),
    exec_ofOpcode_whole (o := .text) hmode hwhole (by simp), exec_ofOpcode_whole (o := .binary) hmode hwhole (by simp)⟩

/-- Settles O12: no reserved row is a control row. -/
theorem reservedRowsComplete : Obligations.ReservedRowsComplete := fun _ _ hmode hwhole =>
  ⟨exec_ofOpcode_whole (o := .reserved3) hmode hwhole (by simp),
    exec_ofOpcode_whole (o := .reserved4) hmode hwhole (by simp),
    exec_ofOpcode_whole (o := .reserved5) hmode hwhole (by simp),
    exec_ofOpcode_whole (o := .reserved6) hmode hwhole (by simp),
    exec_ofOpcode_whole (o := .reserved7) hmode hwhole (by simp),
    exec_ofOpcode_whole (o := .reserved11) hmode hwhole (by simp),
    exec_ofOpcode_whole (o := .reserved12) hmode hwhole (by simp),
    exec_ofOpcode_whole (o := .reserved13) hmode hwhole (by simp),
    exec_ofOpcode_whole (o := .reserved14) hmode hwhole (by simp),
    exec_ofOpcode_whole (o := .reserved15) hmode hwhole (by simp)⟩

/-- Settles O13: the control rows' limits are what the statement asks for. -/
theorem controlRowsComplete : Obligations.ControlRowsComplete := fun _ _ hmode hwhole hfin hlimit =>
  ⟨exec_ofOpcode_whole (o := .close) hmode hwhole fun _ => ⟨hfin, hlimit⟩,
    exec_ofOpcode_whole (o := .ping) hmode hwhole fun _ => ⟨hfin, hlimit⟩,
    exec_ofOpcode_whole (o := .pong) hmode hwhole fun _ => ⟨hfin, hlimit⟩⟩

/-- A HEADER row completes when its payload is there and the control-frame limits are met. -/
theorem execHeader_received {size w : Nat} {form : LenClass} {b : Byte0} {len : BitVec w} {key : Option Key} {s : State}
    (hw : w ≤ 64) (hmode : s.dMode = modeOf key.isSome) (hctl : controlLimitsMet b.opcode b.fin len.toNat = true)
    (hlen : size + len.toNat ≤ s.wireIn.length) :
    execHeader size form b (len.setWidth 64) key s = .next (s.received (rowHeader b len.toNat key) size) := by
  have hn : (len.setWidth 64).toNat = len.toNat := BitVec.toNat_setWidth_of_le hw
  have hlimits : controlFault buildParams b.opcode b.fin (len.setWidth 64) = none :=
    (controlFault_none_iff _ _ _).mpr (by rwa [hn])
  have hhead : rowHeader b len.toNat key =
      wireHeader b.opcode b.fin b.rsv1 b.rsv2 b.rsv3 (len.setWidth 64) key := by
    rw [rowHeader, BitVec.ofNat_toNat]; rfl
  rw [hhead, ← State.deliver_eq_received _ _ _ (by rw [wireHeader, hn]; exact hlen)]
  simp only [execHeader, receiveHeader, modeFault_buildParams, hmode, if_true, minimalFault_buildParams, hlimits,
    receivePayload_eq]
  rw [if_neg (by rw [wireHeader, hn]; exact Nat.not_lt.mpr hlen)]
  rfl

/-- Settles O14: the three unmasked formats of one completion lemma. -/
theorem unmaskedFormatRowsComplete : Obligations.UnmaskedFormatRowsComplete := fun _ _ hmode =>
  ⟨fun _ => execHeader_received (by decide) hmode, fun _ => execHeader_received (by decide) hmode,
    fun _ => execHeader_received (by decide) hmode⟩

/-- Settles O15: the three masked formats of the same. -/
theorem maskedFormatRowsComplete : Obligations.MaskedFormatRowsComplete := fun _ _ _ hmode =>
  ⟨fun _ => execHeader_received (by decide) hmode, fun _ => execHeader_received (by decide) hmode,
    fun _ => execHeader_received (by decide) hmode⟩

/-- Settles O16: a row delivers a frame or takes an error, and neither writes an input buffer, a port or the mode. -/
theorem rowsLeaveTheRestUnchanged : Obligations.RowsLeaveTheRestUnchanged := by
  intro i s t h
  obtain ⟨r, e⟩ := exec_finishes i s
  cases e.symm.trans h
  cases r with
  | ok d =>
    refine ⟨fun _ => ⟨rfl, rfl, rfl, rfl⟩, rfl, rfl, .inl ⟨rfl, fun hm => ?_⟩⟩
    rw [State.finishDecode_ok, State.deliver_h] at hm
    rw [State.finishDecode_ok, State.deliver_keyPhase, hm]
    rfl
  | error k => exact ⟨fun _ => ⟨rfl, rfl, rfl, rfl⟩, rfl, rfl, .inr ⟨k, rfl, rfl, rfl, rfl, rfl, fun _ => rfl⟩⟩

/-! ### The errors of a row, and of a DECODE step -/

/-- A step on a frame whose fixed bytes are there is its BYTE0 row. -/
theorem step_decode_byte0 {s : State} {b0 b1 : Byte} {rest : Bytes} (hc : s.call = some .decode)
    (hin : s.wireIn = b0 :: b1 :: rest) :
    step s = exec (.ofOpcode (.ofCode (opcodeField b0)) (unpackCtl b0 b1)) s :=
  stepIsExecOfEitherRow s .byte0 _ hc (by rw [hin]; rfl)

theorem exec_of_mode_ne {i : Instr} {s : State} (hmode : s.dMode ≠ modeOf i.maskBit) :
    exec i s = .next (s.failed .protocolError) := by
  rcases hk : i.kind
  · obtain ⟨o, c, rfl⟩ := Instr.eq_ofOpcode_of_kind hk
    rw [Instr.maskBit_ofOpcode] at hmode
    rw [byteRowChecksInStreamOrder, if_pos hmode]
  · obtain ⟨size, form, b, n, key, e, hkey⟩ := exec_header i hk s
    rw [e, receiveHeader, modeFault_buildParams, hkey, if_neg hmode]
    rfl

/-- Settles O18: every row begins with the mode check, and a step runs a row once two bytes are there. -/
theorem modeCheckRefusesFirst : Obligations.ModeCheckRefusesFirst := by
  refine ⟨fun i s => exec_of_mode_ne, fun s b0 b1 rest hc hin hmode => ?_⟩
  rw [step_decode_byte0 hc hin]
  exact exec_of_mode_ne (by rwa [Instr.maskBit_ofOpcode])

/-- Settles O19: the control-length check follows the top-bit check, which gives the same error. -/
theorem longControlFrameIsInvalidLength : Obligations.LongControlFrameIsInvalidLength := by
  refine ⟨fun o c s hctl hmode hext hlong => ?_, fun s hc hmode hin => ?_⟩
  · rw [byteRowChecksInStreamOrder]
    simp only [hmode, ne_eq, not_true_eq_false, Nat.not_lt.mpr hext, hctl, hlong, if_true, if_false, ite_self]
  · rw [step_decode hc, hmode, hin]; rfl

/-- Settles O20: the FIN check follows the control-length check. -/
theorem fragmentedControlFrameIsProtocolError : Obligations.FragmentedControlFrameIsProtocolError := by
  refine ⟨fun o c s hctl hmode hext hlimit hfin => ?_, fun s hc hmode => ⟨fun hin => ?_, fun hin => ?_⟩⟩
  · have htop : ¬2 ^ 63 ≤ declaredLength c.sel s.wireIn := by omega
    rw [byteRowChecksInStreamOrder]
    simp only [hmode, ne_eq, not_true_eq_false, Nat.not_lt.mpr hext, htop, hctl, Nat.not_lt.mpr hlimit, hfin, if_true,
      if_false]
  · rw [step_decode hc, hmode, hin]; rfl
  · rw [step_decode hc, hmode, hin]; rfl

/-- Settles O21: the check that the extended length is there comes before the top-bit check. -/
theorem topBitIsTestedOnWholeLength : Obligations.TopBitIsTestedOnWholeLength := by
  intro s b0 b1 rest hc hin hmode hsel
  have hlen : s.wireIn.length = rest.length + 2 := by rw [hin]; rfl
  have hext : extSize (unpackCtl b0 b1).sel = 8 := by
    rw [show (unpackCtl b0 b1).sel = 127 from hsel]; rfl
  have hmode' : s.dMode = modeOf (unpackCtl b0 b1).masked := hmode
  rw [step_decode_byte0 hc hin, byteRowChecksInStreamOrder, if_neg (not_not.mpr hmode'), hext]
  refine ⟨fun hshort => ?_, fun hwhole htop => ?_⟩
  · rw [if_pos (by omega)]
  · rw [if_neg (by omega), if_pos]
    rw [hin]
    exact (declaredLength_topBit_iff b0 b1 _ rest).mpr ⟨hsel, htop⟩

end Sys2Proof.Machine

/-! PROOFS. The statements on the decoder over buffers (spec 44_decoder.md R153 to R159, 30_encoding.md section 4): the checks
a frame has passed, what a decoder needs to see of a buffer, and the byte-serial decoder stage by stage. -/

namespace Sys2Proof.Machine

/-! ### The checks of a frame -/

/-- All a DECODE tests of a frame with these operand bits and declared length, but that its bytes are there. -/
structure PassesChecks (p : Params) (m : Mode) (op : BitVec 4) (c : Ctl) (n : Nat) : Prop where
  mode : modeFault p m c.masked = none
  top : n < 2 ^ 63
  minimal : minimalFault p (selForm c.sel) (BitVec.ofNat 64 n) = none
  control : controlFault p op c.fin (BitVec.ofNat 64 n) = none

/-- A frame that decodes has passed them, and is whole. -/
theorem receiveWord_ok {p : Params} {m : Mode} {inp : Bytes} {op : BitVec 4} {c : Ctl} {d : Decoded}
    (h : receiveWord p m inp op c = .ok d) :
    PassesChecks p m op c (declaredLength c.sel inp) ∧
      headerSize c.masked c.sel + declaredLength c.sel inp ≤ inp.length ∧ d = receivedFrame op c inp := by
  rw [receiveWord_eq] at h
  split at h
  · cases h
  next hmode =>
  split at h
  · cases h
  split at h
  · cases h
  next htop =>
  split at h
  · cases h
  next hmin =>
  split at h
  · cases h
  next hctl =>
  split at h <;> cases h
  next hlen => exact ⟨⟨hmode, Nat.not_le.mp htop, hmin, hctl⟩, Nat.not_lt.mp hlen, rfl⟩

/-- With the checks passed, a frame decodes as soon as it is whole and is `Incomplete` before: also while its length, which
the checks are of, is not there. -/
theorem PassesChecks.receiveWord {p : Params} {m : Mode} {inp : Bytes} {op : BitVec 4} {c : Ctl} {n : Nat}
    (h : PassesChecks p m op c n) (hn : inp.length < 2 + extSize c.sel ∨ declaredLength c.sel inp = n) :
    receiveWord p m inp op c =
      if inp.length < headerSize c.masked c.sel + n then .error .incomplete else .ok (receivedFrame op c inp) := by
  rw [receiveWord_eq]
  by_cases hext : inp.length < 2 + extSize c.sel
  · have hlen : inp.length < headerSize c.masked c.sel + n := by rw [headerSize]; omega
    simp only [h.mode, hext, hlen, if_true]
  · obtain rfl := hn.resolve_left hext
    simp only [h.mode, hext, Nat.not_le.mpr h.top, h.minimal, h.control, if_false]

/-- What DECODE accepts: two fixed bytes, and a whole frame with their operand bits. -/
theorem decodeFrame_ok {p : Params} {m : Mode} {inp : Bytes} {d : Decoded} (h : decodeFrame p m inp = .ok d) :
    ∃ b0 b1 rest, inp = b0 :: b1 :: rest ∧ receiveWord p m inp (opcodeField b0) (unpackCtl b0 b1) = .ok d := by
  match inp with
  | b0 :: b1 :: rest => exact ⟨b0, b1, rest, rfl, by rwa [decodeFrame_cons] at h⟩
  | [] | [_] => rw [decodeFrame_short _ _ (by simp)] at h; cases h

/-! ### Which bytes a frame is read from -/

theorem readByte_eq_of_take_eq {a b : Bytes} {k i : Nat} (h : a.take k = b.take k) (hi : i < k) :
    readByte a i = readByte b i := by
  simpa only [readByte, List.getElem?_take_of_lt hi] using congrArg (·[i]?) h

/-- A frame is read from its own bytes. -/
theorem receivedFrame_congr {op : BitVec 4} {c : Ctl} {a b : Bytes}
    (h : a.take (headerSize c.masked c.sel + declaredLength c.sel a) =
      b.take (headerSize c.masked c.sel + declaredLength c.sel a)) :
    declaredLength c.sel b = declaredLength c.sel a ∧ receivedFrame op c b = receivedFrame op c a := by
  have hread {i : Nat} (hi : i < headerSize c.masked c.sel) : readByte b i = readByte a i :=
    (readByte_eq_of_take_eq h (by omega)).symm
  have hn : declaredLength c.sel b = declaredLength c.sel a :=
    declaredLength_congr fun i hi => hread (hi.trans_le (Nat.le_add_right _ _))
  have hkey : frameKey c.masked c.sel b = frameKey c.masked c.sel a := frameKey_congr fun i hi => hread hi
  have hraw : (b.drop (headerSize c.masked c.sel)).take (declaredLength c.sel a) =
      (a.drop (headerSize c.masked c.sel)).take (declaredLength c.sel a) := by
    have := congrArg (List.drop (headerSize c.masked c.sel)) h
    simpa only [List.drop_take, Nat.add_sub_cancel_left] using this.symm
  refine ⟨hn, ?_⟩
  simp only [receivedFrame, receivedHeader, hn, hkey, hraw]

/-- DECODE reads no byte from `consumed` on. -/
theorem decodeFrame_of_take_eq {p : Params} {m : Mode} {inp inp' : Bytes} {d : Decoded}
    (h : decodeFrame p m inp = .ok d) (htake : inp.take d.consumed = inp'.take d.consumed)
    (hlen' : d.consumed ≤ inp'.length) : decodeFrame p m inp' = .ok d := by
  obtain ⟨b0, b1, rest, rfl, hd⟩ := decodeFrame_ok h
  obtain ⟨hchecks, -, rfl⟩ := receiveWord_ok hd
  have hsize : 2 ≤ (receivedFrame (opcodeField b0) (unpackCtl b0 b1) (b0 :: b1 :: rest)).consumed :=
    (headerSize_le _ _).1.trans (Nat.le_add_right _ _)
  match inp', htake, hlen' with
  | b0' :: b1' :: rest', htake, hlen' =>
    obtain rfl : b0 = b0' := Option.some.inj (readByte_eq_of_take_eq htake (i := 0) (by omega))
    obtain rfl : b1 = b1' := Option.some.inj (readByte_eq_of_take_eq htake (i := 1) (by omega))
    obtain ⟨hn, hframe⟩ := receivedFrame_congr (op := opcodeField b0) htake
    rw [decodeFrame_cons, hchecks.receiveWord (.inr hn), hframe]
    exact if_neg (Nat.not_lt.mpr hlen')
  | [], _, hlen' | [_], _, hlen' => exact absurd (hsize.trans hlen') (by simp)

theorem decodeFrame_consumed_le {p : Params} {m : Mode} {inp : Bytes} {d : Decoded} (h : decodeFrame p m inp = .ok d) :
    d.consumed ≤ inp.length := by
  obtain ⟨b0, b1, rest, rfl, hd⟩ := decodeFrame_ok h
  obtain ⟨-, hlen, rfl⟩ := receiveWord_ok hd
  exact hlen

/-- Other bytes behind the frame do not change it. -/
theorem decodeFrame_take_append {p : Params} {m : Mode} {inp : Bytes} {d : Decoded} (h : decodeFrame p m inp = .ok d)
    (t : Bytes) : decodeFrame p m (inp.take d.consumed ++ t) = .ok d := by
  have hlen : (inp.take d.consumed).length = d.consumed := List.length_take_of_le (decodeFrame_consumed_le h)
  exact decodeFrame_of_take_eq h (List.take_left' hlen).symm (by rw [List.length_append, hlen]; exact Nat.le_add_right _ _)

/-- Settles O26: the count is the decoder's, and it reads no byte behind it. -/
theorem trailingBytesAreNotRead : Obligations.TrailingBytesAreNotRead := by
  intro m inp d h
  obtain ⟨b0, b1, rest, hin, hd⟩ := decodeFrame_ok h
  obtain ⟨-, hlen, rfl⟩ := receiveWord_ok hd
  have hn : (receivedFrame (opcodeField b0) (unpackCtl b0 b1) inp).header.payloadLength.toNat =
    declaredLength (unpackCtl b0 b1).sel inp := ofNat_declaredLength_toNat _ _
  have hsize := (headerSize_le (unpackCtl b0 b1).masked (unpackCtl b0 b1).sel).1
  exact ⟨⟨b0, b1, rest, hin, by rw [hn]; rfl⟩, Nat.lt_of_lt_of_le hsize (Nat.le_add_right _ _), hlen,
    decodeFrame_take_append h⟩

/-- A frame cut short is `Incomplete`. -/
theorem decodeFrame_take_short {p : Params} {m : Mode} {f : Bytes} {d : Decoded} {j : Nat}
    (h : decodeFrame p m f = .ok d) (hj : j < d.consumed) (hjf : j ≤ f.length) :
    decodeFrame p m (f.take j) = .error .incomplete := by
  match j with
  | 0 | 1 => exact decodeFrame_short _ _ (by rw [List.length_take_of_le hjf]; decide)
  | j + 2 =>
    obtain ⟨b0, b1, rest, hin, hd⟩ := decodeFrame_ok h
    obtain ⟨hchecks, -, rfl⟩ := receiveWord_ok hd
    have hlen : (f.take (j + 2)).length = j + 2 := List.length_take_of_le hjf
    have hfixed : f.take (j + 2) = b0 :: b1 :: rest.take j := by rw [hin]; rfl
    have hn : (f.take (j + 2)).length < 2 + extSize (unpackCtl b0 b1).sel ∨
        declaredLength (unpackCtl b0 b1).sel (f.take (j + 2)) = declaredLength (unpackCtl b0 b1).sel f := by
      rcases Nat.lt_or_ge (j + 2) (2 + extSize (unpackCtl b0 b1).sel) with hext | hext
      · exact .inl (by rwa [hlen])
      · exact .inr (declaredLength_congr fun i hi => List.getElem?_take_of_lt (by omega))
    rw [hfixed, decodeFrame_cons, ← hfixed, hchecks.receiveWord hn, if_pos]
    rwa [hlen]

/-- Settles O27: a frame cut short is `Incomplete`; the example is of a frame whose mode is not met. -/
theorem truncatedFrameIsIncomplete : Obligations.TruncatedFrameIsIncomplete :=
  ⟨fun _ _ _ _ h hcons hj => decodeFrame_take_short h (hcons ▸ hj) hj.le, rfl, rfl⟩

/-- Settles O28: both steps are the decoder's function of the same arguments. -/
theorem decodeDependsOnItsInputsAlone : Obligations.DecodeDependsOnItsInputsAlone := by
  intro s s' t t' hc hc' hin hmode ht ht'
  cases (step_decode hc).symm.trans ht
  cases (step_decode hc').symm.trans ht'
  rw [hin, hmode]
  cases decodeFrame buildParams s'.dMode s'.wireIn with
  | ok d => exact ⟨rfl, fun _ => ⟨rfl, rfl, rfl, rfl⟩⟩
  | error e => exact ⟨rfl, nofun⟩

theorem ne_modeOf {m : Mode} {masked : Bool} (h : m ≠ modeOf masked) :
    masked = false ∧ m = .expectMasked ∨ masked = true ∧ m = .expectUnmasked := by
  revert h
  cases m <;> cases masked <;> decide

/-- Every error DECODE can end with once the fixed bytes are there, with the check that fails. -/
theorem receiveWord_error {m : Mode} {inp : Bytes} {op : BitVec 4} {c : Ctl} {k : ErrorKind}
    (h : receiveWord buildParams m inp op c = .error k) :
    k = .incomplete ∨ m ≠ modeOf c.masked ∧ k = .protocolError ∨
      2 ^ 63 ≤ declaredLength c.sel inp ∧ k = .invalidLength ∨
      isControlCode op = true ∧ 125 < declaredLength c.sel inp ∧ k = .invalidLength ∨
      isControlCode op = true ∧ c.fin = false ∧ k = .protocolError := by
  rw [receiveWord_eq, modeFault_buildParams, controlFault_buildParams, minimalFault_buildParams,
    ofNat_declaredLength_toNat] at h
  by_cases hmode : m = modeOf c.masked
  case neg =>
    rw [if_neg hmode] at h
    cases h
    exact .inr (.inl ⟨hmode, rfl⟩)
  rw [if_pos hmode] at h
  dsimp only at h
  split at h
  · cases h; exact .inl rfl
  split at h
  next htop => cases h; exact .inr (.inr (.inl ⟨htop, rfl⟩))
  split at h
  next hfault =>
    cases h
    split at hfault
    next hctl =>
      split at hfault
      next hlong => cases hfault; exact .inr (.inr (.inr (.inl ⟨hctl, hlong, rfl⟩)))
      split at hfault <;> cases hfault
      next hfin => exact .inr (.inr (.inr (.inr ⟨hctl, hfin, rfl⟩)))
    · cases hfault
  · split at h <;> cases h
    exact .inl rfl

/-- Settles O23: the errors of the decoder's checks, each with the bytes that fail it. -/
theorem refusedFramesAreTheListedOnes : Obligations.RefusedFramesAreTheListedOnes := by
  intro m inp k h hk
  match inp with
  | [] | [_] =>
    rw [decodeFrame_short _ _ (by simp)] at h
    cases h; exact absurd rfl hk
  | b0 :: b1 :: rest =>
    refine ⟨b0, b1, rest, rfl, ?_⟩
    rw [decodeFrame_cons] at h
    rcases receiveWord_error h with hinc | ⟨hmode, rfl⟩ | ⟨htop, rfl⟩ | ⟨hctl, hlong, rfl⟩ | ⟨hctl, hfin, rfl⟩
    · exact absurd hinc hk
    · rcases ne_modeOf hmode with ⟨hb, hm⟩ | ⟨hb, hm⟩
      · exact .inr (.inr (.inr (.inl ⟨hb, hm, rfl⟩)))
      · exact .inr (.inr (.inr (.inr ⟨hb, hm, rfl⟩)))
    · obtain ⟨h127, hbit⟩ := (declaredLength_topBit_iff b0 b1 _ rest).mp htop
      exact .inl ⟨h127, hbit, rfl⟩
    · change 125 < declaredLength (selField b1) _ at hlong
      have hsel : 125 < (selField b1).toNat := by
        by_contra hle
        exact hle (by rwa [declaredLength, if_pos (Nat.not_lt.mp hle)] at hlong)
      exact .inr (.inl ⟨(isControlCode_iff _).mp hctl, hsel, hlong, rfl⟩)
    · exact .inr (.inr (.inl ⟨(isControlCode_iff _).mp hctl, hfin, rfl⟩))

/-! ### The byte-serial decoder (44_decoder.md R157) -/

/-- The phase counter is the position modulo 4. -/
theorem maskSerial_eq_maskFrom (key : Key) (ph : BitVec 2) (bs : Bytes) :
    maskSerial key ph bs = maskFrom key ph.toNat bs := by
  induction bs generalizing ph with
  | nil => rfl
  | cons b bs ih =>
    have hph : (ph + 1).toNat % 4 = (ph.toNat + 1) % 4 := by
      rw [BitVec.toNat_add]; exact Nat.mod_mod _ _
    rw [maskSerial, maskFrom_cons, ih, maskFrom_congr key hph]

/-- What a finished serial decoder delivers. -/
def Serial.delivered (x : Serial) : Decoded := ⟨x.header, x.payload, x.pos⟩

theorem decodeSerial_eq_map (p : Params) (m : Mode) (inp : Bytes) (h : Header) (sel : Sel) :
    decodeSerial p m inp h sel = (Serial.run p m inp 4 (.start h sel)).map Serial.delivered := by
  unfold decodeSerial
  cases Serial.run p m inp 4 (.start h sel) <;> rfl

section
variable (p : Params) (m : Mode) (inp : Bytes)

theorem Serial.run_done (n pos : Nat) (sel : Sel) (h : Header) (pay : Bytes) :
    Serial.run p m inp n ⟨.done, pos, sel, h, pay⟩ = .ok ⟨.done, pos, sel, h, pay⟩ := by
  induction n with
  | zero => rfl
  | succ n ih => exact ih

/-- Stage S3. -/
theorem Serial.run_payload (n pos : Nat) (sel : Sel) (h : Header) (pay : Bytes) :
    (Serial.run p m inp (n + 1) ⟨.payload, pos, sel, h, pay⟩).map Serial.delivered = receivePayload inp pos h := by
  unfold Serial.run Serial.advance receivePayload
  dsimp only
  cases fetch inp pos h.payloadLength.toNat with
  | error e => rfl
  | ok r =>
    cases hk : h.maskKey with
    | none => simp only [run_done]; rfl
    | some k => simp only [run_done, maskSerial_eq_maskFrom]; rfl

/-- Stages S2 and S3 of a masked frame. -/
theorem Serial.run_key (n pos : Nat) (sel : Sel) (h : Header) (pay : Bytes) :
    (Serial.run p m inp (n + 2) ⟨.key, pos, sel, h, pay⟩).map Serial.delivered =
      receiveKey inp pos h.opcode ⟨h.fin, h.rsv1, h.rsv2, h.rsv3, true, sel⟩ h.payloadLength := by
  unfold Serial.run Serial.advance receiveKey
  dsimp only
  cases fetchKey inp pos with
  | error e => rfl
  | ok r => exact Serial.run_payload p m inp n r.2 sel _ pay

/-- Stage S1 and what follows: the length, its checks, and stages S2 and S3. -/
theorem Serial.run_length (sel : Sel) (h : Header) (pay : Bytes) (hmode : modeFault p m h.masked = none) :
    (Serial.run p m inp 3 ⟨.length, 2, sel, h, pay⟩).map Serial.delivered =
      receiveWord p m inp h.opcode ⟨h.fin, h.rsv1, h.rsv2, h.rsv3, h.masked, sel⟩ := by
  unfold Serial.run Serial.advance receiveWord
  dsimp only
  rw [hmode]
  cases fetchLenField inp 2 sel with
  | error e => rfl
  | ok r =>
    dsimp only
    cases lenDec p r.1 with
    | error e => rfl
    | ok n =>
      dsimp only
      cases controlFault p h.opcode h.fin n with
      | some e => rfl
      | none =>
        dsimp only
        cases hm : h.masked with
        | true => exact Serial.run_key p m inp 0 r.2 sel { h with payloadLength := n } pay
        | false => exact Serial.run_payload p m inp 1 r.2 sel { h with payloadLength := n, maskKey := none } pay

/-- Stage S0 with both fixed bytes there: the mode check. -/
theorem Serial.run_fixedHeader (b0 b1 : Byte) (rest : Bytes) (h : Header) (sel : Sel) :
    Serial.run p m (b0 :: b1 :: rest) 4 (.start h sel) =
      match modeFault p m (maskField b1) with
      | some e => .error e
      | none => Serial.run p m (b0 :: b1 :: rest) 3 ⟨.length, 2, selField b1, ctlUnpack h b0 b1, []⟩ := by
  have hfetch : fetch (b0 :: b1 :: rest) 0 2 = .ok ([b0, b1], 2) := fetch_ok (by simp)
  rw [Serial.run]
  unfold Serial.advance Serial.start
  dsimp only
  rw [hfetch]
  dsimp only
  cases modeFault p m (maskField b1) <;> rfl

end

/-- Settles O29: the stages read what the decoder reads, in its order, and unmask with a phase counter. -/
theorem serialDecoderIsTheDecoder : Obligations.SerialDecoderIsTheDecoder := by
  intro p m inp h sel
  rw [decodeSerial_eq_map]
  match inp with
  | [] | [_] => rfl
  | b0 :: b1 :: rest =>
    rw [Serial.run_fixedHeader, decodeFrame_cons]
    cases hmode : modeFault p m (maskField b1) with
    | some e => rw [receiveWord_eq, show modeFault p m (unpackCtl b0 b1).masked = some e from hmode]; rfl
    | none =>
      have hrun := Serial.run_length p m (b0 :: b1 :: rest) (selField b1) (ctlUnpack h b0 b1) []
        (by rw [ctlUnpack_masked, hmode])
      rw [ctlUnpack_masked] at hrun
      exact hrun

end Sys2Proof.Machine

/-! PROOFS. The statements on the encoder and on the round trip (spec 43_encoder.md, 44_decoder.md R155 and R158,
41_length_coder.md R111): an encoded frame as its fields, what the decoder reads back of them, and the validator's checks. -/

namespace Sys2Proof.Machine

/-! ### The fields of an encoded frame -/

theorem selForm_lenEnc (n : Len) : selForm (lenEnc n).1 = lenClassOf n := by
  cases hc : lenClassOf n with
  | inline =>
    have hn : n.toNat ≤ 125 := (lenClassOf_eq_inline_iff n).mp hc
    rw [lenEnc_of_inline hc]
    exact selForm_of_le (by rw [BitVec.toNat_setWidth]; exact (Nat.mod_le _ _).trans hn)
  | ext16 => rw [lenEnc_of_ext16 hc]; rfl
  | ext64 => rw [lenEnc_of_ext64 hc]; rfl

/-- LEN_ENC's extended bytes are the length field of its selector. -/
theorem lengthField_lenEnc (n : Len) : lengthField (lenEnc n).1 n.toNat = (lenEnc n).2 := by
  rw [lengthField, selForm_lenEnc]
  cases hc : lenClassOf n with
  | inline => rw [lenEnc_of_inline hc]
  | ext16 => rw [lenEnc_of_ext16 hc]; simp
  | ext64 => rw [lenEnc_of_ext64 hc]; simp

theorem fitsSel_lenEnc {n : Len} (h : n.toNat < 2 ^ 63) : FitsSel (lenEnc n).1 n.toNat := by
  have hdecl := declaredLength_lenEnc n 0 0 []
  rw [← hdecl]
  exact fitsSel_declaredLength (by rwa [hdecl])

/-- A frame is its two fixed bytes, length field, key field and payload field. -/
theorem emitFrame_eq_fields (h : Header) (pay : Bytes) :
    emitFrame h pay = packByte0 h.fin h.rsv1 h.rsv2 h.rsv3 h.opcode :: packByte1 h.masked h.ctl.sel ::
      (lengthField h.ctl.sel h.payloadLength.toNat ++ (keyField h.maskKey ++ unmask h.maskKey pay)) := by
  rw [emitFrame_eq, Header.ctl, lengthField_lenEnc]
  cases h.maskKey <;> simp [ctlPack, keyField]

theorem frameKey_emitFrame (h : Header) (pay : Bytes) :
    frameKey h.ctl.masked h.ctl.sel (emitFrame h pay) = h.maskKey := by
  rw [emitFrame_eq_fields]
  exact frameKey_fields _ _ _ _ _ _

theorem drop_headerSize_emitFrame (h : Header) (pay : Bytes) :
    (emitFrame h pay).drop (headerSize h.ctl.masked h.ctl.sel) = unmask h.maskKey pay := by
  have hsplit := drop_two_eq_fields_append (masked := h.ctl.masked) (sel := h.ctl.sel) (inp := emitFrame h pay)
    (by rw [emitFrame_length]; exact Nat.le_add_right _ _)
  rw [frameKey_emitFrame, declaredLength_emitFrame] at hsplit
  conv_lhs at hsplit => rw [emitFrame_eq_fields]
  exact (List.append_cancel_left (List.append_cancel_left hsplit)).symm

/-- What the decoder reads of a frame is what the encoder was given. -/
theorem receivedFrame_emitFrame {h : Header} {pay : Bytes} (hp : pay.length = h.payloadLength.toNat) :
    receivedFrame h.opcode h.ctl (emitFrame h pay) = ⟨h, pay, (emitFrame h pay).length⟩ := by
  have hraw : (unmask h.maskKey pay).take h.payloadLength.toNat = unmask h.maskKey pay :=
    List.take_of_length_le (by rw [unmask_length, hp])
  simp only [receivedFrame, receivedHeader, declaredLength_emitFrame, frameKey_emitFrame, drop_headerSize_emitFrame, hraw,
    unmask_unmask, emitFrame_length, hp, BitVec.ofNat_toNat, BitVec.setWidth_eq]
  rfl

/-! ### The round trip (44_decoder.md R155) -/

/-- A frame that ENCODE puts out has passed the checks of a decoder in its own mode, the minimal form required or not. -/
theorem passesChecks_of_encodeFrame {h : Header} {pay out : Bytes} (e : encodeFrame buildParams h pay = .ok out)
    (minimal : Bool) :
    PassesChecks { buildParams with requireMinimalLength := minimal } (modeOf h.masked) h.opcode h.ctl
      h.payloadLength.toNat := by
  obtain ⟨htop, hctl, -, -⟩ := encodeFrame_ok e
  refine ⟨?_, htop, ?_, ?_⟩
  · cases hm : h.masked <;> simp only [Header.ctl, hm] <;> rfl
  · rw [BitVec.ofNat_toNat, BitVec.setWidth_eq, Header.ctl, selForm_lenEnc]
    simp [minimalFault]
  · rw [BitVec.ofNat_toNat, BitVec.setWidth_eq]
    exact (controlFault_none_iff _ _ _).mpr hctl

theorem decodeFrame_of_encodeFrame {h : Header} {pay out : Bytes} (e : encodeFrame buildParams h pay = .ok out)
    (minimal : Bool) :
    decodeFrame { buildParams with requireMinimalLength := minimal } (modeOf h.masked) out = .ok ⟨h, pay, out.length⟩ := by
  have hchecks := passesChecks_of_encodeFrame e minimal
  obtain ⟨-, -, hp, rfl⟩ := encodeFrame_ok e
  rw [decodeFrame_emitFrame_eq, hchecks.receiveWord (.inr (declaredLength_emitFrame h pay)),
    receivedFrame_emitFrame hp, if_neg]
  rw [emitFrame_length, hp]
  exact Nat.lt_irrefl _

/-- The same for a build at its defaults. -/
theorem decodeFrame_encodeFrame {h : Header} {pay out : Bytes} (e : encodeFrame buildParams h pay = .ok out) :
    decodeFrame buildParams (modeOf h.masked) out = .ok ⟨h, pay, out.length⟩ :=
  decodeFrame_of_encodeFrame e false

/-- In the mode its MASK bit does not meet, a frame is refused. -/
theorem decodeFrame_encodeFrame_wrong_mode {h : Header} {pay out : Bytes} {m : Mode}
    (e : encodeFrame buildParams h pay = .ok out) (hm : m ≠ modeOf h.masked) :
    decodeFrame buildParams m out = .error .protocolError := by
  obtain ⟨-, -, -, rfl⟩ := encodeFrame_ok e
  rw [decodeFrame_emitFrame_eq, receiveWord_eq, modeFault_buildParams, Header.ctl, if_neg hm]

/-- Settles O25: the fields the decoder reads of the frame are those ENCODE wrote. -/
theorem decodeOfEncodeGivesFrameBack : Obligations.DecodeOfEncodeGivesFrameBack := by
  intro s t u hc hs ht hu hin
  have henc := encode_ok_of_step hc hs ht
  rw [step_decode hu, hin]
  refine ⟨fun hmode => ⟨_, rfl, ?_⟩, fun hmode => ?_⟩
  · rw [hmode, decodeFrame_encodeFrame henc]
    exact ⟨rfl, rfl, rfl, rfl⟩
  · rw [decodeFrame_encodeFrame_wrong_mode henc hmode]
    rfl

/-- Settles O30: by induction over the frames; the first is read whatever follows it. -/
theorem callerLoopRecoversEncodedFrames : Obligations.CallerLoopRecoversEncodedFrames := by
  intro masked frames
  induction frames with
  | nil =>
    intro outs _ houts
    obtain rfl : outs = [] := List.map_eq_nil_iff.mp houts.symm
    rfl
  | cons f frames ih =>
    intro outs hmasked houts
    obtain ⟨out, outs, rfl⟩ : ∃ o os, outs = o :: os := by
      cases outs with
      | nil => cases houts
      | cons o os => exact ⟨o, os, rfl⟩
    obtain ⟨henc, hrest⟩ := List.cons.inj houts
    have hdec := decodeFrame_take_append (decodeFrame_encodeFrame henc) outs.flatten
    rw [List.take_length, hmasked f List.mem_cons_self] at hdec
    rw [List.flatten_cons, List.length_cons, decodeLoop, hdec]
    simp only [List.drop_left, ih outs (fun g hg => hmasked g (List.mem_cons_of_mem f hg)) hrest]

/-- Settles O37: the decoder that requires the minimal form reads the frame too. -/
theorem encoderWritesMinimalForm : Obligations.EncoderWritesMinimalForm :=
  fun _ _ _ e => ⟨_, decodeFrame_of_encodeFrame e true, rfl⟩

/-! ### The bytes of an encoded frame -/

theorem emitFrame_eq_frameBytes (h : Header) (pay : Bytes) : emitFrame h pay = frameBytes h pay := by
  have hlen := lenEnc_eq_lengthBytes h.payloadLength
  have hsel : (lenEnc h.payloadLength).1.toNat = (lengthBytes h.payloadLength.toNat).1 := congrArg Prod.fst hlen
  have hext : (lenEnc h.payloadLength).2 = (lengthBytes h.payloadLength.toNat).2 := congrArg Prod.snd hlen
  rw [emitFrame_eq, frameBytes, ctlPack_eq_fixedBytes, hsel, hext, plainPayload_eq_unmask]
  cases h.maskKey with
  | none => rfl
  | some key => dsimp only; rw [toLe32_eq_shifts]

theorem formatRow_eq_headerRow (h : Header) :
    formatRow h = headerRow ⟨h.fin, h.rsv1, h.rsv2, h.rsv3, h.opcode⟩ h.ctl.sel h.payloadLength.toNat h.maskKey := by
  unfold formatRow headerRow Header.ctl
  dsimp only
  rw [selForm_lenEnc]
  cases hc : lenClassOf h.payloadLength with
  | inline => rw [lenEnc_of_inline hc]; cases h.maskKey <;> rfl
  | ext16 => simp only [BitVec.ofNat_toNat]; cases h.maskKey <;> rfl
  | ext64 => simp only [BitVec.ofNat_toNat]; cases h.maskKey <;> rfl

/-- Settles O36: the fields of the frame are those of its HEADER row, and the payload field. -/
theorem encoderWritesItsFormatRow : Obligations.EncoderWritesItsFormatRow := by
  intro h pay out e
  obtain ⟨htop, -, -, rfl⟩ := encodeFrame_ok e
  have hfit : FitsSel h.ctl.sel h.payloadLength.toNat := fitsSel_lenEnc htop
  rw [emitFrame_eq_fields, formatRow_eq_headerRow, encode_headerRow _ hfit, plainPayload_eq_unmask]
  simp only [List.append_assoc]
  rfl

/-- Settles O33: the header size by the class of the length, and the payload. -/
theorem encodedSize : Obligations.EncodedSize := by
  intro s t hc hs ht
  obtain ⟨-, -, hp, hout⟩ := encodeFrame_ok (encode_ok_of_step hc hs ht)
  have hext : extSize s.h.ctl.sel =
      match lenClassOf s.h.payloadLength with | .inline => 0 | .ext16 => 2 | .ext64 => 8 := by
    rw [Header.ctl, ← lenEnc_ext_length]
    cases hclass : lenClassOf s.h.payloadLength with
    | inline => rw [lenEnc_of_inline hclass]; rfl
    | ext16 => rw [lenEnc_of_ext16 hclass]; rfl
    | ext64 => rw [lenEnc_of_ext64 hclass]; rfl
  rw [hout, emitFrame_length, hp, headerSize, hext]
  rfl

/-- Settles O38: the payload field is the cipher's output, and the key field stands before it. -/
theorem wireByteIsMaskedByWireKeyByte : Obligations.WireByteIsMaskedByWireKeyByte := by
  intro s t hc hm hs ht i hi
  obtain ⟨-, -, -, hout⟩ := encodeFrame_ok (encode_ok_of_step hc hs ht)
  obtain ⟨key, hkey⟩ : ∃ key, s.h.maskKey = some key := Option.isSome_iff_exists.mp hm
  have hsize : (emitFrame s.h s.pay).length - s.pay.length = headerSize s.h.ctl.masked s.h.ctl.sel := by
    rw [emitFrame_length, Nat.add_sub_cancel]
  have hkeyField := keyEndsAt_frameKey (masked := s.h.ctl.masked) (sel := s.h.ctl.sel) (inp := emitFrame s.h s.pay)
    (by rw [emitFrame_length]; exact Nat.le_add_right _ _)
  rw [frameKey_emitFrame] at hkeyField
  rw [hout, hsize]
  refine ⟨_, s.pay[i], _, ?_, List.getElem?_eq_getElem hi, hkeyField key hkey _ (Nat.mod_lt _ (by decide)), rfl⟩
  rw [readByte, ← List.getElem?_drop, drop_headerSize_emitFrame, hkey, unmask, applyMask, maskFrom_getElem?,
    List.getElem?_eq_getElem hi, Nat.zero_add, keyByte_congr key (Nat.mod_mod i 4)]
  rfl

/-! ### The validator's checks (40_header_model.md R86) -/

section
variable {op : BitVec 4} {fin : Bool} {n : Len}

theorem headerFault_of_top (h : 2 ^ 63 ≤ n.toNat) : headerFault buildParams op fin n = some .invalidLength := by
  rw [headerFault_eq, if_pos h]

theorem headerFault_of_long_control (htop : n.toNat < 2 ^ 63) (hctl : op = 8 ∨ op = 9 ∨ op = 10) (h : 125 < n.toNat) :
    headerFault buildParams op fin n = some .invalidLength := by
  rw [headerFault_eq, if_neg (Nat.not_le.mpr htop), if_pos ⟨(isControlCode_iff op).mpr hctl, h⟩]

theorem headerFault_of_fragmented_control (hctl : op = 8 ∨ op = 9 ∨ op = 10) (hlen : n.toNat ≤ 125)
    (h : fin = false) : headerFault buildParams op fin n = some .protocolError := by
  rw [headerFault_eq, if_neg (by omega), if_neg (fun hlong => Nat.not_lt.mpr hlen hlong.2),
    if_pos ⟨(isControlCode_iff op).mpr hctl, h⟩]

end

theorem encodeFrame_of_headerFault {h : Header} {k : ErrorKind} (pay : Bytes)
    (hf : headerFault buildParams h.opcode h.fin h.payloadLength = some k) :
    encodeFrame buildParams h pay = .error k := by
  simp only [encodeFrame, hf]

theorem step_encode_of_error {s : State} {k : ErrorKind} (hc : s.call = some .encode)
    (he : encodeFrame buildParams s.h s.pay = .error k) : step s = .next (s.failed k) := by
  rw [step_encode hc, runEncode, he]
  rfl

/-- Settles O32: the validator's checks, then the length of PAY. -/
theorem encodeChecksHeaderFirst : Obligations.EncodeChecksHeaderFirst := by
  intro s hc
  refine ⟨fun htop => ?_, fun htop => ⟨fun hctl hlong => ?_, fun hctl hlen hfin => ?_, fun hlimits hpay => ?_⟩⟩
  · exact step_encode_of_error hc (encodeFrame_of_headerFault _ (headerFault_of_top htop))
  · exact step_encode_of_error hc (encodeFrame_of_headerFault _ (headerFault_of_long_control htop hctl hlong))
  · exact step_encode_of_error hc (encodeFrame_of_headerFault _ (headerFault_of_fragmented_control hctl hlen hfin))
  · refine step_encode_of_error hc ?_
    simp only [encodeFrame, (headerFault_none_iff _ _ _).mpr ⟨htop, hlimits⟩, hpay, ne_eq, not_false_eq_true, if_true]

theorem runHdrNew_of_headerFault {arg : HeaderArg} {k : ErrorKind} (s : State)
    (hf : headerFault buildParams arg.opcode arg.fin arg.payloadLength = some k) : runHdrNew arg s = s.failed k := by
  rw [runHdrNew, hf]
  rfl

theorem runHdrNew_of_valid {arg : HeaderArg} (s : State)
    (hf : headerFault buildParams arg.opcode arg.fin arg.payloadLength = none) :
    runHdrNew arg s = State.succeeded { s with h := newHeader arg } := by
  rw [runHdrNew, hf]
  rfl

/-- Settles O43: the validator's checks, then all registers. -/
theorem hdrNewValidatesAndWrites : Obligations.HdrNewValidatesAndWrites := by
  intro s arg hc
  rw [step_hdrNew hc]
  refine ⟨fun htop => ?_, fun htop => ⟨fun hctl hlong => ?_, fun hctl hlen hfin => ?_, fun hlimits => ?_⟩⟩
  · rw [runHdrNew_of_headerFault s (headerFault_of_top htop)]
  · rw [runHdrNew_of_headerFault s (headerFault_of_long_control htop hctl hlong)]
  · rw [runHdrNew_of_headerFault s (headerFault_of_fragmented_control hctl hlen hfin)]
  · rw [runHdrNew_of_valid s ((headerFault_none_iff _ _ _).mpr ⟨htop, hlimits⟩)]
    rfl

/-! ### ENCODE and ENCODE_MSG on the state -/

theorem Header.valid_iff (h : Header) : h.valid = true ↔
    h.payloadLength.toNat < 2 ^ 63 ∧ controlLimitsMet h.opcode h.fin h.payloadLength.toNat = true := by
  rw [Header.valid, Bool.and_eq_true, decide_eq_true_iff]
  rfl

/-- Settles O31: every check passes, and the frame is the one the statement writes out. -/
theorem encodeCompletes : Obligations.EncodeCompletes := by
  intro s hc hvalid hp
  obtain ⟨htop, hctl⟩ := s.h.valid_iff.mp hvalid
  rw [step_encode hc, runEncode, encodeFrame_of_checks htop hctl hp, emitFrame_eq_frameBytes]
  rfl

theorem headerFault_kind {op : BitVec 4} {fin : Bool} {n : Len} {k : ErrorKind}
    (h : headerFault buildParams op fin n = some k) : k = .invalidLength ∨ k = .protocolError := by
  rw [headerFault_eq] at h
  split at h
  · cases h; exact .inl rfl
  split at h
  · cases h; exact .inl rfl
  split at h <;> cases h
  exact .inr rfl

/-- ENCODE of a payload of the declared length ends with an error of the validator's, if with any. -/
theorem encodeFrame_error_of_length {h : Header} {pay : Bytes} {k : ErrorKind} (hp : pay.length = h.payloadLength.toNat)
    (e : encodeFrame buildParams h pay = .error k) : k = .invalidLength ∨ k = .protocolError := by
  unfold encodeFrame at e
  split at e
  next hf => cases e; exact headerFault_kind hf
  · rw [if_neg (not_not.mpr hp)] at e
    cases e

theorem toNat_ofNat_length {pay : Bytes} (h : pay.length < 2 ^ 63) :
    pay.length = (BitVec.ofNat 64 pay.length).toNat := by
  rw [BitVec.toNat_ofNat, Nat.mod_eq_of_lt (by omega)]

/-- ENCODE_MSG declares the length of its payload, so it never ends with `LengthMismatch`. -/
theorem encodeMsg_error {opcode : BitVec 4} {fin : Bool} {key : Option Key} {pay : Bytes} {k : ErrorKind}
    (e : encodeMsg buildParams opcode fin key pay = .error k) : k = .invalidLength ∨ k = .protocolError := by
  unfold encodeMsg at e
  split at e
  · cases e; exact .inl rfl
  next htop => exact encodeFrame_error_of_length (toNat_ofNat_length (Nat.not_le.mp htop)) e

/-- Settles O34: an encode writes `OUT` and the key phase, or nothing. -/
theorem encodeLeavesPayloadAndRegisters : Obligations.EncodeLeavesPayloadAndRegisters := by
  intro s t opcode fin key hc hs
  obtain ⟨m, r, ht, hr⟩ : ∃ m r, t = s.finishEncode m r ∧
      ∀ k, r = .error k → k = .invalidLength ∨ k = .protocolError ∨ k = .lengthMismatch := by
    rcases hc with hc | hc
    · cases (step_encode hc).symm.trans hs
      exact ⟨_, _, rfl, fun _ => encodeFrame_error⟩
    · cases (step_encodeMsg hc).symm.trans hs
      exact ⟨_, _, rfl, fun _ he => (encodeMsg_error he).imp_right .inl⟩
  subst ht
  cases r with
  | ok out => exact ⟨fun _ => ⟨rfl, rfl, rfl, rfl⟩, rfl, rfl, rfl, rfl, rfl, .inl rfl⟩
  | error k =>
    refine ⟨fun _ => ⟨rfl, rfl, rfl, rfl⟩, rfl, rfl, rfl, rfl, rfl, .inr ?_⟩
    rcases hr k rfl with rfl | rfl | rfl
    · exact .inl rfl
    · exact .inr (.inl rfl)
    · exact .inr (.inr rfl)

/-- The operands with which ENCODE_MSG's header is made by HDR_NEW. -/
def msgArg (opcode : BitVec 4) (fin : Bool) (key : Option Key) (unused : Key) (len : Nat) : HeaderArg :=
  ⟨fin, false, false, false, opcode, key.isSome, key.getD unused, BitVec.ofNat 64 len⟩

theorem newHeader_msgArg (opcode : BitVec 4) (fin : Bool) (key : Option Key) (unused : Key) (len : Nat) :
    newHeader (msgArg opcode fin key unused len) = msgHeader opcode fin key len := by
  cases key <;> rfl

/-- Settles O35: with a payload below 2^63 both begin with the validator's checks on the same header. -/
theorem encodeMsgIsHdrNewThenEncode : Obligations.EncodeMsgIsHdrNewThenEncode := by
  intro s opcode fin key unused hc
  rw [step_encodeMsg hc, runEncodeMsg, encodeMsg]
  refine ⟨fun htop => ?_, fun htop => ?_⟩
  · rw [if_pos htop]
    rfl
  rw [if_neg (Nat.not_le.mpr htop)]
  refine ⟨_, _, step_hdrNew (arg := msgArg opcode fin key unused s.pay.length) rfl, rfl, ?_⟩
  cases hf : headerFault buildParams opcode fin (BitVec.ofNat 64 s.pay.length) with
  | some k =>
    rw [runHdrNew_of_headerFault _ hf, encodeFrame_of_headerFault _ hf]
    exact .inl ⟨k, rfl, rfl⟩
  | none =>
    obtain ⟨hn, hl⟩ := (headerFault_none_iff _ _ _).mp hf
    have henc := encodeFrame_of_checks (h := msgHeader opcode fin key s.pay.length) hn hl
      (toNat_ofNat_length htop)
    rw [runHdrNew_of_valid _ hf, newHeader_msgArg, henc]
    obtain ⟨v, hv, hok, hout⟩ := step_encode_ok (s := { s with
      h := msgHeader opcode fin key s.pay.length, result := some .ok, call := some .encode }) rfl henc
    exact .inr ⟨v, rfl, hv, rfl, hok, hout.symm⟩

end Sys2Proof.Machine

/-! PROOFS. The statements on the header model, the length coder and the masking pipeline (spec 40_header_model.md sections 1
and 2, 41_length_coder.md R112 to R114, 42_masking.md R120 to R127). -/

namespace Sys2Proof.Machine

/-! ### The opcode demultiplexer (40_header_model.md R81 to R83) -/

theorem classOf_ofCode_eq_control_iff (c : BitVec 4) :
    classOf (.ofCode c) = .control ↔ isControlCode c = true := by revert c; decide

theorem classOf_ofCode_eq_data_iff (c : BitVec 4) :
    classOf (.ofCode c) = .data ↔ c = 0 ∨ c = 1 ∨ c = 2 := by revert c; decide

/-- The seven select lines in the order of R83. -/
def selectLineList (l : SelectLines) : List Bool :=
  [l.isContinuation, l.isText, l.isBinary, l.isClose, l.isPing, l.isPong, l.isReserved]

theorem selectLines_count_true (o : Opcode) : (selectLineList (selectLines o)).count true = 1 := by
  cases o <;> rfl

/-- Settles O4: the code of a variant and the variant of a code are inverse. -/
theorem opcodeViewIsABijection : Obligations.OpcodeViewIsABijection := by
  refine ⟨fun s t u v hc ht hu => ?_, Opcode.code_ofCode, rfl⟩
  cases (step_opcToRaw hc).symm.trans ht
  cases (step_opcDemux rfl).symm.trans hu
  exact ⟨rfl, rfl, Opcode.ofCode_code v⟩

/-- Settles O40: the class and the select lines of each of the 16 codes. -/
theorem opcodeClassesAndSelectLines : Obligations.OpcodeClassesAndSelectLines := by
  intro s t u hc ht hu
  cases (step_isControl hc).symm.trans ht
  cases (step_opcDemux rfl).symm.trans hu
  refine ⟨isControlCode_iff s.h.opcode, Opcode.code_ofCode s.h.opcode, classOf_ofCode_eq_control_iff s.h.opcode,
    classOf_ofCode_eq_data_iff s.h.opcode, selectLines_count_true (.ofCode s.h.opcode)⟩

/-! ### The control-bit extractor (40_header_model.md R84, R85) -/

theorem opcodeField_eq_ofNat (b0 : Byte) : opcodeField b0 = BitVec.ofNat 4 (b0.toNat % 16) := by revert b0; decide

theorem selField_eq_ofNat (b1 : Byte) : selField b1 = BitVec.ofNat 7 (b1.toNat % 128) := by revert b1; decide

theorem ctlPack_ctlUnpack (h : Header) (b0 b1 : Byte) : ctlPack (ctlUnpack h b0 b1) (selField b1) = (b0, b1) := by
  rw [ctlPack, ctlUnpack_masked, packByte1_unpack]
  exact congrArg (·, b1) (packByte0_unpackByte0 b0)

theorem ctlUnpack_ctlPack (h : Header) (sel : Sel) : ctlUnpack h (ctlPack h sel).1 (ctlPack h sel).2 = h := by
  have hkey (b0 : Byte) : maskAfterUnpack h.maskKey b0 (packByte1 h.masked sel) = h.maskKey := by
    rw [maskAfterUnpack, maskField_packByte1, Header.masked]
    cases h.maskKey <;> rfl
  simp only [ctlUnpack, ctlPack, unpackByte0_packByte0, hkey]

/-- Settles O42: the fields of the two bytes, and both inverses. -/
theorem unpackControlBits : Obligations.UnpackControlBits := by
  refine ⟨fun s b0 b1 hc => ?_, fun s t u sel hc ht hu => ?_⟩
  · refine ⟨_, maskAfterUnpack s.h.maskKey b0 b1, step_ctlUnpack hc, rfl, ?_, ctlUnpack_masked s.h b0 b1, fun hm => ?_,
      fun hm hkey => ?_, ?_, _, step_ctlPack rfl, ?_, ?_⟩
    · rw [← opcodeField_eq_ofNat]; rfl
    · rw [maskAfterUnpack, maskField, hm]; rfl
    · obtain ⟨key, hkey⟩ := Option.isSome_iff_exists.mp hkey
      rw [maskAfterUnpack, maskField, hm, hkey]; rfl
    · rw [← selField_eq_ofNat]; rfl
    · exact congrArg Prod.fst (ctlPack_ctlUnpack s.h b0 b1)
    · exact congrArg Prod.snd (ctlPack_ctlUnpack s.h b0 b1)
  · cases (step_ctlPack hc).symm.trans ht
    cases (step_ctlUnpack rfl).symm.trans hu
    exact ⟨ctlUnpack_ctlPack s.h sel, selField_packByte1 s.h.masked sel⟩

/-! ### LEN_DEC (41_length_coder.md R112) -/

theorem LenField.inline_sel_toNat (v : Fin 126) : (LenField.inline v).sel.toNat = v := by
  rw [LenField.sel, BitVec.toNat_ofNat]; omega

theorem LenField.form_eq_selForm (f : LenField) : f.form = selForm f.sel := by
  cases f with
  | inline v =>
    refine (selForm_of_le ?_).symm
    rw [LenField.inline_sel_toNat]; omega
  | ext16 _ _ => rfl
  | ext64 _ _ _ _ _ _ _ _ => rfl

theorem LenField.value_toNat (f : LenField) : f.value.toNat = declaredLength f.sel (0 :: 0 :: f.ext) := by
  cases f with
  | inline v =>
    rw [declaredLength, LenField.inline_sel_toNat, if_pos (by omega), LenField.value, BitVec.toNat_ofNat]; omega
  | ext16 x0 x1 =>
    rw [LenField.value, BitVec.toNat_setWidth_of_le (by decide), be16_toNat]; rfl
  | ext64 x0 x1 x2 x3 x4 x5 x6 x7 => rw [LenField.value, be64_toNat]; rfl

theorem LenField.ext_length (f : LenField) : f.ext.length = extSize f.sel := by
  cases f with
  | inline v =>
    refine (extSize_of_le _ ?_).symm
    rw [LenField.inline_sel_toNat]; omega
  | ext16 _ _ => rfl
  | ext64 _ _ _ _ _ _ _ _ => rfl

/-- Every selector with the extended bytes it calls for is an operand of LEN_DEC (log 11). -/
theorem LenField.exists_of_length {sel : Sel} {ext : Bytes} (h : ext.length = extSize sel) :
    ∃ f : LenField, f.sel = sel ∧ f.ext = ext := by
  rcases sel_cases sel with hs | rfl | rfl
  · rw [extSize_of_le _ hs] at h
    obtain rfl := List.length_eq_zero_iff.mp h
    exact ⟨.inline ⟨sel.toNat, Nat.lt_succ_of_le hs⟩, by simp [LenField.sel], rfl⟩
  · obtain ⟨x0, x1, rfl⟩ := List.length_eq_two.mp h
    exact ⟨.ext16 x0 x1, rfl, rfl⟩
  · match ext, h with
    | [x0, x1, x2, x3, x4, x5, x6, x7], _ => exact ⟨.ext64 x0 x1 x2 x3 x4 x5 x6 x7, rfl, rfl⟩
    | [], h | [_], h | [_, _], h | [_, _, _], h | [_, _, _, _], h | [_, _, _, _, _], h | [_, _, _, _, _, _], h
    | [_, _, _, _, _, _, _], h | _ :: _ :: _ :: _ :: _ :: _ :: _ :: _ :: _ :: _, h => simp at h

/-- LEN_DEC with the build's parameters, by the value alone. -/
theorem lenDec_buildParams (f : LenField) :
    lenDec buildParams f = if 2 ^ 63 ≤ f.value.toNat then .error .invalidLength else .ok f.value := by
  rw [lenDec_eq, minimalFault_buildParams]

theorem runLenDec_of_lt {f : LenField} (s : State) (h : f.value.toNat < 2 ^ 63) :
    runLenDec f s = State.succeeded { s with h := { s.h with payloadLength := f.value } } := by
  rw [runLenDec, lenDec_buildParams, if_neg (Nat.not_le.mpr h)]
  rfl

theorem runLenDec_of_top {f : LenField} (s : State) (h : 2 ^ 63 ≤ f.value.toNat) :
    runLenDec f s = s.failed .invalidLength := by
  rw [runLenDec, lenDec_buildParams, if_pos h]
  rfl

/-- Settles O46: the value of a field is the length its bytes declare. -/
theorem lengthIsDecoded : Obligations.LengthIsDecoded := by
  refine ⟨fun s f hc => ?_, fun sel ext => ⟨LenField.exists_of_length, ?_⟩⟩
  · rw [step_lenDec hc, ← f.value_toNat, BitVec.ofNat_toNat, BitVec.setWidth_eq]
    exact ⟨fun h => by rw [runLenDec_of_lt s h], fun h => by rw [runLenDec_of_top s h]⟩
  · rintro ⟨f, rfl, rfl⟩
    exact f.ext_length

/-- A field in the form of its value is what LEN_ENC writes. -/
theorem lenEnc_value {f : LenField} (h : f.form = lenClassOf f.value) : lenEnc f.value = (f.sel, f.ext) := by
  cases f with
  | inline v =>
    rw [lenEnc_of_inline h.symm, LenField.value, BitVec.setWidth_ofNat_of_le (by decide)]; rfl
  | ext16 x0 x1 =>
    rw [lenEnc_of_ext16 h.symm, LenField.value, BitVec.setWidth_setWidth_of_le _ (by decide), BitVec.setWidth_eq,
      toBe16_be16]
    rfl
  | ext64 x0 x1 x2 x3 x4 x5 x6 x7 => rw [lenEnc_of_ext64 h.symm, LenField.value, toBe64_be64]; rfl

/-- Settles O47: the value declared by LEN_ENC's bytes is the length, and the form of a field is that of its selector. -/
theorem lengthCoderRoundTrip : Obligations.LengthCoderRoundTrip := by
  refine ⟨fun n hn => ⟨lenEnc_ext_length n, ?_⟩, fun f n hf => ?_⟩
  · obtain ⟨f, hsel, hext⟩ := LenField.exists_of_length (lenEnc_ext_length n)
    have hvalue : f.value.toNat = n.toNat := by
      have hdecl := declaredLength_lenEnc n 0 0 []
      rwa [f.value_toNat, hsel, hext, ← List.append_nil (lenEnc n).2]
    exact ⟨f, hsel, hext, by rw [lenDec_buildParams, hvalue, if_neg (Nat.not_le.mpr hn), BitVec.eq_of_toNat_eq hvalue]⟩
  · rw [lenDec_buildParams] at hf
    split at hf <;> cases hf
    refine ⟨fun h => ?_, lenEnc_value⟩
    rw [f.form_eq_selForm, ← selForm_lenEnc, h]

/-! ### The key as four bytes (42_masking.md R120, R121) -/

theorem le32_eq_ofNat (k0 k1 k2 k3 : Byte) :
    le32 k0 k1 k2 k3 = BitVec.ofNat 32 (k0.toNat + 256 * k1.toNat + 65536 * k2.toNat + 16777216 * k3.toNat) := by
  rw [← le32_toNat, BitVec.ofNat_toNat, BitVec.setWidth_eq]

theorem le32_shifts (key : Key) :
    le32 (key.setWidth 8) ((key >>> 8).setWidth 8) ((key >>> 16).setWidth 8) ((key >>> 24).setWidth 8) = key := by
  simpa [keyByte_eq_shift] using le32_keyBytes key

/-- Settles O48: the key's four bytes and their little-endian value. -/
theorem keyBytesAreLittleEndian : Obligations.KeyBytesAreLittleEndian := by
  refine ⟨fun s t u k0 k1 k2 k3 hc ht hu => ?_, fun s t key hc hkey ht => ?_⟩
  · cases (step_keyFromBytes hc).symm.trans ht
    cases (step_keyBytes rfl).symm.trans hu
    rw [← le32_eq_ofNat]
    exact ⟨rfl, rfl, toLe32_le32 k0 k1 k2 k3, rfl⟩
  · cases (step_keyBytes hc).symm.trans ht
    refine ⟨?_, _, step_keyFromBytes rfl, congrArg some (le32_shifts key)⟩
    rw [← toLe32_eq_shifts, runKeyBytes, hkey]
    rfl

/-! ### APPLY_MASK and APPLY_MASK_WIDE (42_masking.md R122, R125 to R127) -/

/-- Settles O49: the cipher byte by byte. -/
theorem applyMaskXorsEveryByte : Obligations.ApplyMaskXorsEveryByte := by
  refine fun s key hc => ⟨_, _, step_applyMask hc, applyMask_length key s.buf, fun i => ?_⟩
  rw [readByte, applyMask, maskFrom_getElem?, Nat.zero_add, keyByte_eq_shift]
  rfl

/-- Rotating the key moves its bytes. -/
theorem keyByte_rotKey (key : Key) (r j : Nat) : keyByte (rotKey key r) j = keyByte key (j + r) := by
  apply BitVec.eq_of_getLsbD_eq
  intro i hi
  have hr : 8 * (r % 4) % 32 = 8 * (r % 4) := by omega
  simp only [keyByte, rotKey, BitVec.getLsbD_extractLsb', BitVec.getLsbD_rotateRight, hr, hi, decide_true, Bool.true_and]
  by_cases hlow : 8 * (j % 4) + i < 32 - 8 * (r % 4)
  · have hindex : 8 * (r % 4) + (8 * (j % 4) + i) = 8 * ((j + r) % 4) + i := by omega
    simp only [hlow, decide_true, cond_true, hindex]
  · have hindex : 8 * (j % 4) + i - (32 - 8 * (r % 4)) = 8 * ((j + r) % 4) + i := by omega
    have hbit : 8 * (j % 4) + i < 32 := by omega
    simp only [hlow, decide_false, cond_false, hbit, decide_true, Bool.true_and, hindex]

theorem maskFrom_rotKey (key : Key) (r i : Nat) (bs : Bytes) :
    maskFrom (rotKey key r) i bs = maskFrom key (i + r) bs := by
  induction bs generalizing i with
  | nil => rfl
  | cons b bs ih => rw [maskFrom_cons, maskFrom_cons, keyByte_rotKey, ih, Nat.add_right_comm]

/-- Settles O52: the second part is masked from the phase at which the first ended. -/
theorem keyRotationTracksPhase : Obligations.KeyRotationTracksPhase := by
  intro key a b
  refine ⟨?_, fun h => ?_, keyByte_rotKey key⟩
  · exact (maskFrom_append key 0 a b).trans (congrArg _ (maskFrom_rotKey key a.length 0 b).symm)
  · exact (maskFrom_append key 0 a b).trans (congrArg _ (maskFrom_congr key (by omega) b))

/-- A word XOR is four byte XORs. -/
theorem toLe32_le32_xor (key : Key) (b0 b1 b2 b3 : Byte) :
    toLe32 (le32 b0 b1 b2 b3 ^^^ key) = maskFrom key 0 [b0, b1, b2, b3] := by
  have hword := toLe32_le32 b0 b1 b2 b3
  simp only [toLe32, List.cons.injEq, and_true] at hword
  obtain ⟨h0, h1, h2, h3⟩ := hword
  have hxor (w : Key) (i : Nat) : keyByte (w ^^^ key) i = keyByte w i ^^^ keyByte key i := BitVec.extractLsb'_xor
  simp only [toLe32, hxor, h0, h1, h2, h3]
  rfl

/-- Splitting a buffer at whole words does not move the phase. -/
theorem maskFrom_append_words (key : Key) {a : Bytes} (b : Bytes) (h : a.length % 4 = 0) :
    maskFrom key 0 (a ++ b) = maskFrom key 0 a ++ maskFrom key 0 b := by
  rw [maskFrom_append, maskFrom_congr key (show (0 + a.length) % 4 = 0 % 4 by omega)]

/-- Over whole words, word XORs are the byte-wise cipher. -/
theorem maskWords_eq_maskFrom (key : Key) (bs : Bytes) (h : bs.length % 4 = 0) :
    maskWords key bs = maskFrom key 0 bs := by
  match bs with
  | b0 :: b1 :: b2 :: b3 :: rest =>
    have hrest : rest.length % 4 = 0 := by simp only [List.length_cons] at h; omega
    rw [maskWords, toLe32_le32_xor, maskWords_eq_maskFrom key rest hrest, ← maskFrom_append_words key rest (by simp)]
    rfl
  | [] => rfl
  | [_] | [_, _] | [_, _, _] => simp at h

/-- The chunks of one width, and the byte-wise cipher on what they leave, are the byte-wise cipher. -/
theorem maskChunks_append_maskFrom (key : Key) {w : Nat} (hw : w % 4 = 0) (fuel : Nat) (bs : Bytes) :
    (maskChunks key w fuel bs).1 ++ maskFrom key 0 (maskChunks key w fuel bs).2 = maskFrom key 0 bs := by
  induction fuel generalizing bs with
  | zero => rfl
  | succ fuel ih =>
    rw [maskChunks]
    split
    next hlen =>
      have hchunk : (bs.take w).length % 4 = 0 := by rwa [List.length_take_of_le hlen]
      rw [List.append_assoc, ih, maskWords_eq_maskFrom key _ hchunk, ← maskFrom_append_words key _ hchunk,
        List.take_append_drop]
    · rfl

/-- So is a cascade of widths that are whole words. -/
theorem maskCascade_eq_maskFrom (key : Key) {ws : List Nat} (hws : ∀ w ∈ ws, w % 4 = 0) (bs : Bytes) :
    maskCascade key ws bs = maskFrom key 0 bs := by
  induction ws generalizing bs with
  | nil => rfl
  | cons w ws ih =>
    rw [maskCascade, ih (fun v hv => hws v (List.mem_cons_of_mem w hv)),
      maskChunks_append_maskFrom key (hws w List.mem_cons_self)]

theorem applyMaskWide_eq_applyMask (key : Key) (buf : Bytes) : applyMaskWide key buf = applyMask key buf :=
  maskCascade_eq_maskFrom key (by decide) buf

/-- Settles O53: the cascade's widths are whole words, so that every chunk begins at phase 0. -/
theorem wideMaskingIsByteWiseMasking : Obligations.WideMaskingIsByteWiseMasking := by
  intro s key
  rw [step_applyMaskWide rfl, step_applyMask rfl, runApplyMaskWide, applyMaskWide_eq_applyMask]
  rfl

end Sys2Proof.Machine

/-! PROOFS. The statements on the state as a whole (spec 60_exceptions.md R170 to R176, 20_memory.md R34 to R40, 10_state.md
R25): how each operation ends and which fields it leaves, said once, and what follows for all seventeen. -/

namespace Sys2Proof.Machine

/-! ### How an operation ends, and what it leaves -/

/-- What an operation leaves as it was, by the "Registers written" line of its rule: every field but those named here. -/
def Call.Leaves (s t : State) : Call → Prop
  | .opcToRaw _ | .isControl | .opcDemux | .ctlPack _ | .lenClass | .lenEnc | .keyBytes =>
    t = { s with ports := t.ports, result := t.result, call := none }
  | .opcFromRaw _ | .hdrNew _ | .lenDec _ | .keyFromBytes _ _ _ _ =>
    t = { s with h := t.h, result := t.result, call := none }
  | .ctlUnpack _ _ => t = { s with h := t.h, ports := t.ports, result := t.result, call := none }
  | .applyMask _ | .applyMaskWide _ =>
    t = { s with buf := t.buf, keyPhase := t.keyPhase, result := t.result, call := none }
  | .encode | .encodeMsg _ _ _ =>
    t = { s with wireOut := t.wireOut, keyPhase := t.keyPhase, result := t.result, call := none }
  | .decode =>
    t = { s with
      h := t.h, pos := t.pos, consumed := t.consumed, payOut := t.payOut, keyPhase := t.keyPhase
      result := t.result, call := none }

/-- An operation ends with an error of its own and nothing else changed, or with `OK`; and writes the fields of its rule. -/
structure Call.Ends (c : Call) (s t : State) : Prop where
  leaves : c.Leaves s t
  result : (∃ k, raisedBy k c = true ∧ t = s.raise k) ∨ t.result = some .ok

theorem Call.ends_raise {c : Call} {k : ErrorKind} (h : raisedBy k c = true) (s : State) : c.Ends s (s.raise k) :=
  ⟨by cases c <;> rfl, .inl ⟨k, h, rfl⟩⟩

theorem runOpcFromRaw_ends (n : Nat) (s : State) : (Call.opcFromRaw n).Ends s (runOpcFromRaw n s) := by
  rcases Nat.lt_or_ge 15 n with hn | hn
  · rw [runOpcFromRaw_of_lt hn]; exact Call.ends_raise rfl s
  · rw [runOpcFromRaw_of_le hn]; exact ⟨rfl, .inr rfl⟩

theorem runHdrNew_ends (arg : HeaderArg) (s : State) : (Call.hdrNew arg).Ends s (runHdrNew arg s) := by
  cases hf : headerFault buildParams arg.opcode arg.fin arg.payloadLength with
  | some k =>
    rw [runHdrNew_of_headerFault s hf]
    rcases headerFault_kind hf with rfl | rfl <;> exact Call.ends_raise rfl s
  | none => rw [runHdrNew_of_valid s hf]; exact ⟨rfl, .inr rfl⟩

theorem runLenDec_ends (f : LenField) (s : State) : (Call.lenDec f).Ends s (runLenDec f s) := by
  rcases Nat.lt_or_ge f.value.toNat (2 ^ 63) with hn | hn
  · rw [runLenDec_of_lt s hn]; exact ⟨rfl, .inr rfl⟩
  · rw [runLenDec_of_top s hn]; exact Call.ends_raise rfl s

theorem runEncode_ends (s : State) : Call.encode.Ends s (runEncode s) := by
  cases he : encodeFrame buildParams s.h s.pay with
  | ok out => rw [runEncode, he]; exact ⟨rfl, .inr rfl⟩
  | error k =>
    rw [runEncode, he]
    rcases encodeFrame_error he with rfl | rfl | rfl <;> exact Call.ends_raise rfl s

theorem runEncodeMsg_ends (opcode : BitVec 4) (fin : Bool) (key : Option Key) (s : State) :
    (Call.encodeMsg opcode fin key).Ends s (runEncodeMsg opcode fin key s) := by
  cases he : encodeMsg buildParams opcode fin key s.pay with
  | ok out => rw [runEncodeMsg, he]; exact ⟨rfl, .inr rfl⟩
  | error k =>
    rw [runEncodeMsg, he]
    rcases encodeMsg_error he with rfl | rfl <;> exact Call.ends_raise rfl s

theorem step_decode_ends {s : State} (hc : s.call = some .decode) : ∃ t, step s = .next t ∧ Call.decode.Ends s t := by
  have hs := step_decode hc
  refine ⟨_, hs, ?_⟩
  cases hd : decodeFrame buildParams s.dMode s.wireIn with
  | ok d => exact ⟨rfl, .inr rfl⟩
  | error k =>
    rw [hd] at hs
    exact Call.ends_raise (step_decode_raisedBy hc hs rfl) s

/-- All a step with an operation presented can do. -/
theorem step_ends {s : State} {c : Call} (hc : s.call = some c) : ∃ t, step s = .next t ∧ c.Ends s t :=
  match c with
  | .opcFromRaw n => ⟨_, step_opcFromRaw hc, runOpcFromRaw_ends n s⟩
  | .opcToRaw _ => ⟨_, step_opcToRaw hc, rfl, .inr rfl⟩
  | .isControl => ⟨_, step_isControl hc, rfl, .inr rfl⟩
  | .opcDemux => ⟨_, step_opcDemux hc, rfl, .inr rfl⟩
  | .ctlPack _ => ⟨_, step_ctlPack hc, rfl, .inr rfl⟩
  | .ctlUnpack _ _ => ⟨_, step_ctlUnpack hc, rfl, .inr rfl⟩
  | .hdrNew arg => ⟨_, step_hdrNew hc, runHdrNew_ends arg s⟩
  | .lenClass => ⟨_, step_lenClass hc, rfl, .inr rfl⟩
  | .lenEnc => ⟨_, step_lenEnc hc, rfl, .inr rfl⟩
  | .lenDec f => ⟨_, step_lenDec hc, runLenDec_ends f s⟩
  | .keyBytes => ⟨_, step_keyBytes hc, rfl, .inr rfl⟩
  | .keyFromBytes _ _ _ _ => ⟨_, step_keyFromBytes hc, rfl, .inr rfl⟩
  | .applyMask _ => ⟨_, step_applyMask hc, rfl, .inr rfl⟩
  | .applyMaskWide _ => ⟨_, step_applyMaskWide hc, rfl, .inr rfl⟩
  | .encode => ⟨_, step_encode hc, runEncode_ends s⟩
  | .encodeMsg opcode fin key => ⟨_, step_encodeMsg hc, runEncodeMsg_ends opcode fin key s⟩
  | .decode => step_decode_ends hc

/-- The same of the state a step answers. -/
theorem ends_of_step {s t : State} {c : Call} (hc : s.call = some c) (hs : step s = .next t) : c.Ends s t := by
  obtain ⟨u, hu, hends⟩ := step_ends hc
  cases hu.symm.trans hs
  exact hends

/-! ### What follows of every operation's end -/

section
variable {c : Call} {s t : State}

theorem Call.Ends.raised (h : c.Ends s t) {k : ErrorKind} (ht : t.result = some (.err k)) :
    raisedBy k c = true ∧ t = s.raise k := by
  rcases h.result with ⟨k', hk, rfl⟩ | hok
  · cases ht; exact ⟨hk, rfl⟩
  · cases hok.symm.trans ht

theorem Call.Ends.result_ne_none (h : c.Ends s t) : t.result ≠ none := by
  rcases h.result with ⟨k, -, rfl⟩ | hok
  · rw [State.raise_result]; exact Option.some_ne_none _
  · rw [hok]; exact Option.some_ne_none _

theorem Call.Leaves.call (h : c.Leaves s t) : t.call = none := by
  cases c <;> exact (congrArg State.call h :)

theorem Call.Leaves.inputs (h : c.Leaves s t) : t.wireIn = s.wireIn ∧ t.pay = s.pay ∧ t.dMode = s.dMode := by
  cases c <;> exact ⟨(congrArg State.wireIn h :), (congrArg State.pay h :), (congrArg State.dMode h :)⟩

theorem Call.Leaves.buf (h : c.Leaves s t) (hm : ∀ k, c ≠ .applyMask k) (hw : ∀ k, c ≠ .applyMaskWide k) :
    t.buf = s.buf := by
  cases c with
  | applyMask k => exact absurd rfl (hm k)
  | applyMaskWide k => exact absurd rfl (hw k)
  | _ => exact (congrArg State.buf h :)

end

/-- Settles O9: an idle step answers its state, and every operation ends. -/
theorem everyStepCompletes : Obligations.EveryStepCompletes := by
  intro s
  cases hc : s.call with
  | none => exact ⟨s, step_idle hc, hc, fun h => absurd rfl h⟩
  | some c =>
    obtain ⟨t, hs, hends⟩ := step_ends hc
    exact ⟨t, hs, hends.leaves.call, fun _ => hends.result_ne_none⟩

/-- Settles O10: the machine's own idle case. -/
theorem idleStepChangesNothing : Obligations.IdleStepChangesNothing := fun _ => step_idle

/-- Settles O44: the kinds of each operation's end. -/
theorem errorKindsAndTheirOperations : Obligations.ErrorKindsAndTheirOperations :=
  fun _ _ _ _ hc hs ht => ((ends_of_step hc hs).raised ht).1

/-- Settles O57: an operation that raises ends in the shared error state. -/
theorem errorChangesNothingElse : Obligations.ErrorChangesNothingElse :=
  fun _ _ _ _ hc hs ht => ((ends_of_step hc hs).raised ht).2

/-- Settles O58: no operation's rule names an input, and BUF is named by APPLY_MASK's alone. -/
theorem inputsAreNeverWritten : Obligations.InputsAreNeverWritten := by
  intro s t hs
  cases hc : s.call with
  | none =>
    cases (step_idle hc).symm.trans hs
    exact ⟨fun _ => ⟨rfl, rfl⟩, rfl, fun _ _ _ => rfl⟩
  | some c =>
    have hleaves := (ends_of_step hc hs).leaves
    obtain ⟨hin, hpay, hmode⟩ := hleaves.inputs
    refine ⟨fun a => ⟨by rw [hin], by rw [hpay]⟩, hmode, fun hm hw a => ?_⟩
    rw [hleaves.buf (fun k hk => hm k (congrArg some hk)) fun k hk => hw k (congrArg some hk)]

/-- Settles O59: the fields that each register operation's rule names. -/
theorem registerOperationsLeaveTheRest : Obligations.RegisterOperationsLeaveTheRest := by
  intro s t c hc hs hdec henc hmsg hmask hwide
  have hl := (ends_of_step hc hs).leaves
  obtain ⟨hin, hpay, hmode⟩ := hl.inputs
  have hbuf := hl.buf hmask hwide
  obtain ⟨hout, hpout, hpos, hcons, hphase⟩ : t.wireOut = s.wireOut ∧ t.payOut = s.payOut ∧ t.pos = s.pos ∧
      t.consumed = s.consumed ∧ t.keyPhase = s.keyPhase := by
    cases c with
    | decode => exact absurd rfl hdec
    | encode => exact absurd rfl henc
    | encodeMsg o f k => exact absurd rfl (hmsg o f k)
    | applyMask k => exact absurd rfl (hmask k)
    | applyMaskWide k => exact absurd rfl (hwide k)
    | _ =>
      exact ⟨(congrArg State.wireOut hl :), (congrArg State.payOut hl :), (congrArg State.pos hl :),
        (congrArg State.consumed hl :), (congrArg State.keyPhase hl :)⟩
  refine ⟨fun a => ⟨by rw [hin], by rw [hpay], by rw [hbuf], by rw [hout], by rw [hpout]⟩, hpos, hcons, hphase, hmode,
    fun hports => ?_, fun hheader => ?_⟩
  · rcases hports with ⟨v, rfl⟩ | rfl | rfl | ⟨x, rfl⟩ | rfl | rfl | rfl <;> exact (congrArg State.h hl :)
  · rcases hheader with ⟨n, rfl⟩ | ⟨a, rfl⟩ | ⟨f, rfl⟩ | ⟨k0, k1, k2, k3, rfl⟩ <;> exact (congrArg State.ports hl :)

/-- Settles O54: by the reset values of the call and result, and the idle step. -/
theorem resetIsIdle : Obligations.ResetIsIdle := ⟨rfl, rfl, step_idle rfl⟩

/-- Settles O55: at reset the count is 0 and the buffers are empty. -/
theorem invariantHoldsAtReset : Obligations.InvariantHoldsAtReset := ⟨rfl, .inl ⟨rfl, rfl⟩, .inl rfl⟩

/-! ### Results and outputs depend on the operands -/

/-- The end of an encode is its outcome's, whatever the state. -/
theorem State.finishEncode_outputs (s s' : State) (m m' : Bool) (r : Except ErrorKind Bytes) :
    (s.finishEncode m r).result = (s'.finishEncode m' r).result ∧
      ((s.finishEncode m r).result = some .ok → (s.finishEncode m r).wireOut = (s'.finishEncode m' r).wireOut) := by
  cases r with
  | ok out => exact ⟨rfl, fun _ => rfl⟩
  | error k => exact ⟨rfl, nofun⟩

theorem ctlPack_congr {h h' : Header} (sel : Sel) (hop : h.fin = h'.fin ∧ h.rsv1 = h'.rsv1 ∧ h.rsv2 = h'.rsv2 ∧
    h.rsv3 = h'.rsv3 ∧ h.opcode = h'.opcode ∧ h.masked = h'.masked) : ctlPack h sel = ctlPack h' sel := by
  obtain ⟨hfin, h1, h2, h3, hcode, hm⟩ := hop
  rw [ctlPack, ctlPack, hfin, h1, h2, h3, hcode, hm]

theorem runOpcFromRaw_outputs (n : Nat) (s s' : State) :
    (runOpcFromRaw n s).result = (runOpcFromRaw n s').result ∧
      ((runOpcFromRaw n s).result = some .ok → (runOpcFromRaw n s).h.opcode = (runOpcFromRaw n s').h.opcode) := by
  rcases Nat.lt_or_ge 15 n with hn | hn
  · rw [runOpcFromRaw_of_lt hn, runOpcFromRaw_of_lt hn]; exact ⟨rfl, nofun⟩
  · rw [runOpcFromRaw_of_le hn, runOpcFromRaw_of_le hn]; exact ⟨rfl, fun _ => rfl⟩

theorem runHdrNew_outputs (arg : HeaderArg) (s s' : State) :
    (runHdrNew arg s).result = (runHdrNew arg s').result ∧
      ((runHdrNew arg s).result = some .ok → (runHdrNew arg s).h = (runHdrNew arg s').h) := by
  cases hf : headerFault buildParams arg.opcode arg.fin arg.payloadLength with
  | some k => rw [runHdrNew_of_headerFault s hf, runHdrNew_of_headerFault s' hf]; exact ⟨rfl, nofun⟩
  | none => rw [runHdrNew_of_valid s hf, runHdrNew_of_valid s' hf]; exact ⟨rfl, fun _ => rfl⟩

theorem runLenDec_outputs (f : LenField) (s s' : State) :
    (runLenDec f s).result = (runLenDec f s').result ∧
      ((runLenDec f s).result = some .ok → (runLenDec f s).h.payloadLength = (runLenDec f s').h.payloadLength) := by
  rcases Nat.lt_or_ge f.value.toNat (2 ^ 63) with hn | hn
  · rw [runLenDec_of_lt s hn, runLenDec_of_lt s' hn]; exact ⟨rfl, fun _ => rfl⟩
  · rw [runLenDec_of_top s hn, runLenDec_of_top s' hn]; exact ⟨rfl, nofun⟩

/-- Settles O60: each operation's result and outputs are functions of its operands. -/
theorem operationsDependOnTheirOperandsAlone : Obligations.OperationsDependOnTheirOperandsAlone := by
  intro s s' t t' c hc hc' hop ht ht'
  cases c with
  | opcFromRaw n =>
    cases (step_opcFromRaw hc).symm.trans ht
    cases (step_opcFromRaw hc').symm.trans ht'
    exact runOpcFromRaw_outputs n s s'
  | opcToRaw v =>
    cases (step_opcToRaw hc).symm.trans ht
    cases (step_opcToRaw hc').symm.trans ht'
    exact ⟨rfl, fun _ => rfl⟩
  | isControl =>
    cases (step_isControl hc).symm.trans ht
    cases (step_isControl hc').symm.trans ht'
    exact ⟨rfl, fun _ => congrArg isControlCode hop⟩
  | opcDemux =>
    cases (step_opcDemux hc).symm.trans ht
    cases (step_opcDemux hc').symm.trans ht'
    exact ⟨rfl, fun _ => ⟨congrArg Opcode.ofCode hop, congrArg (fun c => classOf (.ofCode c)) hop⟩⟩
  | ctlPack sel =>
    cases (step_ctlPack hc).symm.trans ht
    cases (step_ctlPack hc').symm.trans ht'
    have hpack := ctlPack_congr sel hop
    exact ⟨rfl, fun _ => ⟨congrArg Prod.fst hpack, congrArg Prod.snd hpack⟩⟩
  | ctlUnpack b0 b1 =>
    cases (step_ctlUnpack hc).symm.trans ht
    cases (step_ctlUnpack hc').symm.trans ht'
    have hmasked := (ctlUnpack_masked s.h b0 b1).trans (ctlUnpack_masked s'.h b0 b1).symm
    exact ⟨rfl, fun _ => ⟨rfl, rfl, rfl, rfl, rfl, hmasked, rfl⟩⟩
  | hdrNew arg =>
    cases (step_hdrNew hc).symm.trans ht
    cases (step_hdrNew hc').symm.trans ht'
    exact runHdrNew_outputs arg s s'
  | lenClass =>
    cases (step_lenClass hc).symm.trans ht
    cases (step_lenClass hc').symm.trans ht'
    exact ⟨rfl, fun _ => congrArg lenClassOf hop⟩
  | lenEnc =>
    cases (step_lenEnc hc).symm.trans ht
    cases (step_lenEnc hc').symm.trans ht'
    exact ⟨rfl, fun _ => ⟨congrArg (fun n => (lenEnc n).1) hop, congrArg (fun n => (lenEnc n).2) hop⟩⟩
  | lenDec f =>
    cases (step_lenDec hc).symm.trans ht
    cases (step_lenDec hc').symm.trans ht'
    exact runLenDec_outputs f s s'
  | keyBytes =>
    cases (step_keyBytes hc).symm.trans ht
    cases (step_keyBytes hc').symm.trans ht'
    exact ⟨rfl, fun _ => congrArg (fun key : Option Key => keyBytesOf (key.getD Config.absentKey)) hop⟩
  | keyFromBytes k0 k1 k2 k3 =>
    cases (step_keyFromBytes hc).symm.trans ht
    cases (step_keyFromBytes hc').symm.trans ht'
    exact ⟨rfl, fun _ => rfl⟩
  | applyMask key =>
    cases (step_applyMask hc).symm.trans ht
    cases (step_applyMask hc').symm.trans ht'
    exact ⟨rfl, fun _ => congrArg (applyMask key) hop⟩
  | applyMaskWide key =>
    cases (step_applyMaskWide hc).symm.trans ht
    cases (step_applyMaskWide hc').symm.trans ht'
    exact ⟨rfl, fun _ => congrArg (applyMaskWide key) hop⟩
  | encode =>
    cases (step_encode hc).symm.trans ht
    cases (step_encode hc').symm.trans ht'
    obtain ⟨hh, hpay⟩ := hop
    rw [runEncode, runEncode, hh, hpay]
    exact State.finishEncode_outputs _ _ _ _ _
  | encodeMsg opcode fin key =>
    cases (step_encodeMsg hc).symm.trans ht
    cases (step_encodeMsg hc').symm.trans ht'
    have hpay : s.pay = s'.pay := hop
    rw [runEncodeMsg, runEncodeMsg, hpay]
    exact State.finishEncode_outputs _ _ _ _ _
  | decode => exact decodeDependsOnItsInputsAlone s s' t t' hc hc' hop.1 hop.2 ht ht'

end Sys2Proof.Machine
